-- ==== Sys2Proof/Word.lean ====
section
/-! DEFINITION. The word types of the machine: bytes, 16-bit words, and register numbers (spec 00_scope R6, R8, R9; 10_state R21). -/

namespace Sys2Proof

/-- A byte of memory or a general register: `XLEN = 8` bits, unsigned (R6, R9). -/
abbrev Byte := BitVec 8

/-- A 16-bit quantity: an opcode, `pc`, `I`, a stack slot (R6: `ILEN`, `PCLEN`). -/
abbrev Word16 := BitVec 16

/-- A general register number, V0 to VF: every 4-bit selector names an existing register (R21). -/
abbrev Reg := Fin 16

/-- V0, the implicit offset of `JP V0,nnn` (R21). -/
abbrev V0 : Reg := 0

/-- VF, register 15, the flag register (R22). -/
abbrev VF : Reg := 15

end Sys2Proof
end

