-- ==== Sys2Proof/Config.lean ====
section
/-! DEFINITION. The constants the spec fixes (00_scope R6; the register widths and counts and the stack depth are in the types of Word.lean and Machine/State.lean) and the one free value of the machine, the random byte (43_load_alu R174).
The parameters `FONT_BASE` and `FONT` of R7 stand in Machine/Font.lean. -/

namespace Sys2Proof

/-- `MEM_SIZE`: bytes of memory, addresses 0x000 to 0xFFF (R6, R60). -/
abbrev Config.memSize : Nat := 4096

/-- `PROG_BASE`: where an image is loaded and where `pc` starts (R6). -/
abbrev Config.progBase : Nat := 0x200

/-- `MAX_IMAGE`: the largest program image in bytes, 4096 - 0x200 (R6, R210). -/
abbrev Config.maxImage : Nat := 3584

/-- `FB_W`: framebuffer columns (R6, R33). -/
abbrev Config.fbW : Nat := 64

/-- `FB_H`: framebuffer rows (R6, R33). -/
abbrev Config.fbH : Nat := 32

/-- `GLYPH_BYTES`: bytes of one font glyph (R6, R182). -/
abbrev Config.glyphBytes : Nat := 5

/-- `draw()`: the `k`-th environment byte of a run, any value 0 to 255 (R10, R37, R174).
It has no body: no proof can know a value of it. The counter `State.draws` says which draw is next (log entry 1). -/
opaque Config.draw : Nat → Byte

end Sys2Proof
end

