-- ==== Sys2Proof/Machine/State.lean ====
section
/-! DEFINITION. The state of CORE as plain data (10_state R20 to R40), the faults of a step (60_exceptions R220) and the state after reset (R40, R250). -/

namespace Sys2Proof.Machine

/-- `MEM`: the bytes that differ from the reset contents, as (address, byte) pairs (20_memory R60).
`Memory.read`, `Memory.write` and the canonical form `Memory.wf` are in Machine/Ops.lean. -/
abbrev Memory := List Host.Cell

/-- `FB`: 32 rows of 64 one-bit pixels, row 0 first, column 0 first in its row (R33, R193). -/
abbrev Framebuffer := Vector (Vector Bool 64) 32

/-- The complete architectural state of CORE (R20), and one counter of the model's own, `draws`. -/
structure State where
  /-- `MEM` (R34, R60). -/
  mem : Memory
  /-- `V[0..15]` (R21); VF is `v[15]` (R22). -/
  v : Vector Byte 16
  /-- `I` (R28). -/
  i : Word16
  /-- `pc` (R25); at the start of a step it is `pc0`. -/
  pc : Word16
  /-- `STACK[0..15]` (R29). -/
  stack : Vector Word16 16
  /-- `SP`, the number of return addresses held, 0 to 16 (R29, R30). -/
  sp : Fin 17
  /-- `DT`, the delay timer (R31). -/
  dt : Byte
  /-- `ST`, the sound timer (R31). -/
  st : Byte
  /-- `KEY[0..15]`, pressed or not (R32). -/
  keys : Vector Bool 16
  /-- `FB` (R33). -/
  fb : Framebuffer
  /-- `REDRAW` (R35). -/
  redraw : Bool
  /-- The model's own, not the spec's: how many environment bytes `RND` has consumed; the next is `Config.draw draws` (R174, log entry 1). -/
  draws : Nat
deriving DecidableEq, Repr

/-- The kind of an out-of-bounds access (R220). -/
inductive AccessKind where
  | fetch
  | data
deriving DecidableEq, Repr

/-- The fatal conditions of `step` (R220, R239). CORE has no trap entry: a fault is the outcome of the step and its state is the one before it (R226, R227).
All are the spec's own, so stopping on them is safe. -/
inductive Fault where
  /-- Raised by the instruction fetch when `pc0 + 1 >= 4096` (kind `fetch`, `address = pc0`, R121, R221) and by `DRW`, `LD B`, `LD [I]`, `LD Vx,[I]` when the byte range passes 4095 (kind `data`, `address = I`, R66, R221). Safe. -/
  | outOfBounds (kind : AccessKind) (pc0 : Word16) (address : Word16)
  /-- Raised by `CALL nnn` with `SP = 16` (R142, R222). Safe. -/
  | stackOverflow (pc0 : Word16)
  /-- Raised by `RET` with `SP = 0` (R140, R223). Safe. -/
  | stackUnderflow (pc0 : Word16)
  /-- Raised by `SKP Vx` and `SKNP Vx` with `V[x] > 15` (R155, R156, R224). Safe. -/
  | keyIndexRange (pc0 : Word16) (value : Byte)
deriving DecidableEq, Repr

/-- Why an instruction has no meaning. No instruction of this model is refused. -/
inductive Refusal where
  /-- Raised by an arm of `exec` whose instruction has no meaning yet; no arm raises it here. Safe. -/
  | notModelled (mnemonic : String)
deriving DecidableEq, Repr

/-- The outcome of an instruction. -/
abbrev Result := Host.Outcome State Fault Refusal

/-- The state right after reset (R40, R250): registers zero, `pc = 0x200`, memory at its reset contents, the rest zero. -/
def State.reset : State where
  mem := []
  v := Vector.replicate 16 0
  i := 0
  pc := 0x200
  stack := Vector.replicate 16 0
  sp := 0
  dt := 0
  st := 0
  keys := Vector.replicate 16 false
  fb := Vector.replicate 32 (Vector.replicate 64 false)
  redraw := false
  draws := 0

end Sys2Proof.Machine
end

