-- ==== Sys2Proof/Machine/Ops.lean ====
section
/-! DEFINITION. The named operations over memory, registers, stack and framebuffer that the meanings are written with, and the one operation that raises a fault. -/

namespace Sys2Proof.Machine

/-! ### Memory (20_memory) -/

/-- The canonical form of a memory: addresses strictly rising and below 4096, and no entry equal to the reset contents. -/
abbrev Memory.wf (m : Memory) : Prop :=
  m.Pairwise (fun p q => p.1 < q.1) ∧ ∀ p ∈ m, p.1 < Config.memSize ∧ p.2 ≠ resetByte p.1

/-- `MemRead(a, 1)` (R10, R68): the byte last written to `a`, or its reset contents. -/
def Memory.read : Memory → Nat → Byte
  | [], a => resetByte a
  | (b, w) :: rest, a => if b = a then w else Memory.read rest a

/-- Takes the entry of `a` off the list, so that `a` reads as its reset contents. -/
def Memory.eraseEntry : Memory → Nat → Memory
  | [], _ => []
  | (b, w) :: rest, a => if b = a then rest else (b, w) :: Memory.eraseEntry rest a

/-- Puts the entry `(a, w)` at its place in the rising order, over an entry `a` has already. -/
def Memory.insertEntry : Memory → Nat → Byte → Memory
  | [], a, w => [(a, w)]
  | (b, u) :: rest, a, w =>
    if a < b then (a, w) :: (b, u) :: rest
    else if a = b then (a, w) :: rest
    else (b, u) :: Memory.insertEntry rest a w

/-- `MemWrite(a, 1, w)` (R10, R68), keeping the canonical form.
It is asked only for existing addresses (every caller checks its range first, R66); an address that does not exist holds nothing. -/
def Memory.write (m : Memory) (a : Nat) (w : Byte) : Memory :=
  if Config.memSize ≤ a then m
  else if w = resetByte a then m.eraseEntry a
  else m.insertEntry a w

/-- Writes bytes at ascending addresses from `a` (R63, R187). -/
def Memory.writeBytes : Memory → Nat → List Byte → Memory
  | m, _, [] => m
  | m, a, w :: ws => Memory.writeBytes (m.write a w) (a + 1) ws

/-- The `count` bytes at ascending addresses from `a` (R63, R187). -/
def Memory.readBytes (m : Memory) (a : Nat) : Nat → List Byte
  | 0 => []
  | k + 1 => m.read a :: Memory.readBytes m (a + 1) k

/-- Whether the `count` bytes from `base` all exist; an access of zero bytes is always in range (R66). The sum does not wrap. -/
def dataInRange (base count : Nat) : Bool := count == 0 || decide (base + count ≤ Config.memSize)

/-! ### Framebuffer (10_state R33) -/

/-- `FB[r][c]`; there is no pixel outside the grid. -/
def Framebuffer.pixel (fb : Framebuffer) (r c : Nat) : Bool :=
  if h : r < Config.fbH ∧ c < Config.fbW then (fb[r]'h.1)[c]'h.2 else false

/-- `FB[r][c] <- b`; a pixel outside the grid is not drawn (R191 (a)). -/
def Framebuffer.setPixel (fb : Framebuffer) (r c : Nat) (b : Bool) : Framebuffer :=
  if h : r < Config.fbH ∧ c < Config.fbW then fb.set r ((fb[r]'h.1).set c b h.2) h.1 else fb

/-- The all-clear framebuffer (R190). -/
def Framebuffer.clear : Framebuffer := Vector.replicate 32 (Vector.replicate 64 false)

/-! ### Updates of one part of the state -/

/-- `V[x]` (R21). -/
def State.reg (s : State) (x : Reg) : Byte := s.v[x]

/-- `V[x] <- b` (R21). -/
def State.setReg (s : State) (x : Reg) (b : Byte) : State := { s with v := s.v.set x b }

/-- Writes all sixteen registers. -/
def State.setRegs (s : State) (v : Vector Byte 16) : State := { s with v := v }

/-- `I <- w`. -/
def State.setI (s : State) (w : Word16) : State := { s with i := w }

/-- `pc <- w`. -/
def State.setPc (s : State) (w : Word16) : State := { s with pc := w }

/-- `MEM` becomes `m`. -/
def State.setMem (s : State) (m : Memory) : State := { s with mem := m }

/-- `DT <- b`. -/
def State.setDt (s : State) (b : Byte) : State := { s with dt := b }

/-- `ST <- b`. -/
def State.setSt (s : State) (b : Byte) : State := { s with st := b }

/-- `KEY[k] <- b`. -/
def State.putKey (s : State) (k : Fin 16) (b : Bool) : State := { s with keys := s.keys.set k b }

/-- `FB` becomes `fb`. -/
def State.setFb (s : State) (fb : Framebuffer) : State := { s with fb := fb }

/-- `REDRAW <- b`. -/
def State.setRedraw (s : State) (b : Bool) : State := { s with redraw := b }

/-- One more environment byte is consumed (R174). -/
def State.countDraw (s : State) : State := { s with draws := s.draws + 1 }

/-! ### Ends of an instruction -/

/-- `pc <- pc0 + 2` (R26). -/
def State.advance (s : State) : State := s.setPc (s.pc + 2)

/-- `pc <- pc0 + 4` if the condition holds, else `pc <- pc0 + 2` (R150). -/
def State.skipIf (s : State) (c : Bool) : State := s.setPc (if c then s.pc + 4 else s.pc + 2)

/-- `raise f` (R10): the step ends with the fault, and no state goes with it, since none has changed (R226).
This is all that taking an exception is on this machine: no vector, no saved `pc`, no mode (R227), and nothing returns from it (R228). -/
def raise (f : Fault) : Result := .fault f

/-- The data check of R66: if the `count` bytes from `I` all exist the instruction ends in `next`, else it raises `OutOfBounds(data)` with `pc0` and `I` (R221). -/
def guardData (s : State) (count : Nat) (next : State) : Result :=
  if dataInRange s.i.toNat count then .next next else raise (.outOfBounds .data s.pc s.i)

/-! ### Call stack (10_state R29) -/

/-- Push: requires `SP < 16`; `STACK[SP] <- w; SP <- SP + 1` (R29). -/
def State.push (s : State) (w : Word16) : Option State :=
  if h : s.sp.val < 16 then
    some { s with stack := s.stack.set s.sp.val w h, sp := ⟨s.sp.val + 1, by omega⟩ }
  else none

/-- Pop: requires `SP > 0`; `SP <- SP - 1; result = STACK[SP]` (R29). -/
def State.pop (s : State) : Option (Word16 × State) :=
  if h : 0 < s.sp.val then
    some (s.stack[s.sp.val - 1]'(by omega), { s with sp := ⟨s.sp.val - 1, by omega⟩ })
  else none

/-! ### Numeric codes (60_exceptions R220) -/

/-- The reference code of a fault; a label only, which CORE writes nowhere (R220, decision D20; codes 6 and 7 are no faults of a step, see `replyCode` in Machine/Run.lean). -/
def faultCode : Fault → Nat
  | .outOfBounds .fetch _ _ => 1
  | .outOfBounds .data _ _ => 2
  | .stackOverflow _ => 3
  | .stackUnderflow _ => 4
  | .keyIndexRange _ _ => 5

end Sys2Proof.Machine
end

