-- ==== Sys2Proof/Machine/Operands.lean ====
section
/-! DEFINITION. The operand forms of the instructions: register operands, zero-extended constants, the register range `V0..Vx`, the key index, decimal digits, the glyph address and the sprite's origin. -/

namespace Sys2Proof.Machine

/-- An address operand `nnn`, zero-extended to 16 bits (30_encoding R93). -/
def addrOperand (nnn : BitVec 12) : Word16 := nnn.setWidth 16

/-- A register value zero-extended to 16 bits: every widening is zero extension (00_scope R9, R10). -/
def zext16 (b : Byte) : Word16 := b.setWidth 16

/-- The values of `V0..Vx` inclusive, in ascending order: `x` is a count, not one register (44_index_and_memory R184). -/
def State.regsUpTo (s : State) (x : Reg) : List Byte := s.v.toList.take (x.val + 1)

/-- `V[i] <- MemRead(base + i, 1)` for `i` in `0 .. x`; the registers above `Vx` keep their values (R185). -/
def State.loadRegs (s : State) (base : Nat) (x : Reg) : State :=
  s.setRegs (Vector.ofFn fun i => if i.val ≤ x.val then s.mem.read (base + i.val) else s.v[i])

/-- The key a register value selects: 0 to 15, and no key above 15 (42_skips R155, R156, decision D7). -/
def keyIndex (b : Byte) : Option (Fin 16) := if h : b.toNat < 16 then some ⟨b.toNat, h⟩ else none

/-- The least `k` with `KEY[k] = 1` (46_timers_and_keys R201). -/
def State.lowestKey (s : State) : Option (Fin 16) := (List.finRange 16).find? fun k => s.keys[k]

/-- A key number as a register value. -/
def keyByte (k : Fin 16) : Byte := BitVec.ofNat 8 k.val

/-- The three decimal digits of a byte: hundreds, tens, ones, each as its numeric value (R183). -/
def decimalDigits (b : Byte) : List Byte :=
  [BitVec.ofNat 8 (b.toNat / 100), BitVec.ofNat 8 (b.toNat / 10 % 10), BitVec.ofNat 8 (b.toNat % 10)]

/-- `FONT_BASE + 5 * V[x]`, with all 8 bits of the register (R182). -/
def glyphAddress (b : Byte) : Word16 := BitVec.ofNat 16 (fontBase + Config.glyphBytes * b.toNat)

/-- `x0 = V[x] mod 64`, the sprite's starting column (45_display R191). -/
def startColumn (b : Byte) : Nat := b.toNat % Config.fbW

/-- `y0 = V[y] mod 32`, the sprite's starting row (R191). -/
def startRow (b : Byte) : Nat := b.toNat % Config.fbH

end Sys2Proof.Machine
end

