-- ==== Sys2Proof/Machine/Control.lean ====
section
/-! DEFINITION. Control transfer: RET, JP, CALL, JP V0 (41_control_flow R140 to R143). -/

namespace Sys2Proof.Machine

/-- `RET` (R140): pops the stack into `pc`; `StackUnderflow` if `SP = 0`. -/
def execRet (s : State) : Result :=
  match s.pop with
  | none => raise (.stackUnderflow s.pc)
  | some (target, s') => .next (s'.setPc target)

/-- `JP nnn` (R141). -/
def execJpNnn (nnn : BitVec 12) (s : State) : Result := .next (s.setPc (addrOperand nnn))

/-- `CALL nnn` (R142): pushes `pc0 + 2`; `StackOverflow` if `SP = 16`. -/
def execCallNnn (nnn : BitVec 12) (s : State) : Result :=
  match s.push (s.pc + 2) with
  | none => raise (.stackOverflow s.pc)
  | some s' => .next (s'.setPc (addrOperand nnn))

/-- `JP V0,nnn` (R143): the sum is at most 0x10FE, so it does not wrap and is not reduced mod 4096. -/
def execJpV0Nnn (nnn : BitVec 12) (s : State) : Result :=
  .next (s.setPc (addrOperand nnn + zext16 (s.reg V0)))

end Sys2Proof.Machine
end

