-- ==== Sys2Proof/Machine/Flags.lean ====
section
/-! DEFINITION. Every flag computation of the machine; VF is its only flag (10_state R22, R23; 43_load_alu R162, R172). -/

namespace Sys2Proof.Machine

/-- A flag as VF holds it: 0x00 or 0x01 in all eight bits (R22). -/
def flagByte (b : Bool) : Byte := if b then 1 else 0

/-- The carry of `ADD Vx,Vy`: the unsigned sum exceeds 255 (R167). -/
def carryFlag (a b : Byte) : Byte := flagByte (decide (255 < a.toNat + b.toNat))

/-- The flag of `SUB` and `SUBN`: strictly greater, so equal operands give 0 (R168, R170). -/
def greaterFlag (a b : Byte) : Byte := flagByte (decide (b.toNat < a.toNat))

/-- The bit `SHR` shifts out: bit 0 (R169). -/
def lowBitFlag (a : Byte) : Byte := flagByte (a.getLsbD 0)

/-- The bit `SHL` shifts out: bit 7 (R171). -/
def highBitFlag (a : Byte) : Byte := flagByte (a.getLsbD 7)

/-- The write order of the flag-writing instructions: the result to `V[x]`, then the flag to `V[15]`, so that with `x = 15` the flag remains (R24, R162, decision D8). -/
def State.setResultAndFlag (s : State) (x : Reg) (result flag : Byte) : State :=
  (s.setReg x result).setReg VF flag

end Sys2Proof.Machine
end

