-- ==== Sys2Proof/Machine/Display.lean ====
section
/-! DEFINITION. CLS and DRW (45_display R190, R191). -/

namespace Sys2Proof.Machine

/-- One sprite cell at `(row, col)` of the accumulated framebuffer and collision bit: outside the grid it is clipped; a 1 bit inverts its pixel, and clearing a set pixel is a collision (R191 (a), (b), (d)). -/
def blitCell (acc : Framebuffer × Bool) (row col : Nat) (bit : Bool) : Framebuffer × Bool :=
  if bit ∧ row < Config.fbH ∧ col < Config.fbW then
    (acc.1.setPixel row col (!acc.1.pixel row col), acc.2 || acc.1.pixel row col)
  else acc

/-- One sprite row: columns `0 .. 7`, left to right, bit 7 the leftmost (R191 (c)). -/
def blitRow (acc : Framebuffer × Bool) (row x0 : Nat) (b : Byte) : Framebuffer × Bool :=
  (List.range 8).foldl (fun acc c => blitCell acc row (x0 + c) (b.getLsbD (7 - c))) acc

/-- The sprite's rows, downward from `row` (R191). -/
def blitRows : Framebuffer × Bool → Nat → Nat → List Byte → Framebuffer × Bool
  | acc, _, _, [] => acc
  | acc, row, x0, b :: bs => blitRows (blitRow acc row x0 b) (row + 1) x0 bs

/-- The whole sprite drawn on a framebuffer at `(y0, x0)`, with its collision bit, which starts at 0 (R191). -/
def blit (fb : Framebuffer) (y0 x0 : Nat) (sprite : List Byte) : Framebuffer × Bool :=
  blitRows (fb, false) y0 x0 sprite

/-- `CLS` (R190): VF and `REDRAW` are not written. -/
def execCls (s : State) : Result := .next (s.setFb Framebuffer.clear).advance

/-- What the blit of `DRW` gives in `s`: the operands are read before VF is written (R191 (e)). -/
def drawResult (s : State) (x y : Reg) (n : BitVec 4) : Framebuffer × Bool :=
  blit s.fb (startRow (s.reg y)) (startColumn (s.reg x)) (s.mem.readBytes s.i.toNat n.toNat)

/-- `DRW Vx,Vy,n` (R191): the whole byte range is checked first ((f)); VF is the collision bit; `REDRAW` is set. -/
def execDrwVxVyN (x y : Reg) (n : BitVec 4) (s : State) : Result :=
  guardData s n.toNat
    (((s.setFb (drawResult s x y n).1).setReg VF (flagByte (drawResult s x y n).2)).setRedraw true).advance

end Sys2Proof.Machine
end

