-- ==== Sys2Proof/Machine/IndexMemory.lean ====
section
/-! DEFINITION. The index register and the memory transfers (44_index_and_memory R180 to R185). -/

namespace Sys2Proof.Machine

/-- `LD I,nnn` (R180). -/
def execLdINnn (nnn : BitVec 12) (s : State) : Result := .next (s.setI (addrOperand nnn)).advance

/-- `ADD I,Vx` (R181): modulo 65536, no flag. -/
def execAddIVx (x : Reg) (s : State) : Result := .next (s.setI (s.i + zext16 (s.reg x))).advance

/-- `LD F,Vx` (R182): the address of the glyph; no mask on `V[x]`. -/
def execLdFVx (x : Reg) (s : State) : Result := .next (s.setI (glyphAddress (s.reg x))).advance

/-- `LD B,Vx` (R183): three decimal digits at `I`, `I+1`, `I+2`. -/
def execLdBVx (x : Reg) (s : State) : Result :=
  guardData s 3 (s.setMem (s.mem.writeBytes s.i.toNat (decimalDigits (s.reg x)))).advance

/-- `LD [I],Vx` (R184): `V0..Vx` to memory from `I`; `I` is not changed. -/
def execLdMemVx (x : Reg) (s : State) : Result :=
  guardData s (x.val + 1) (s.setMem (s.mem.writeBytes s.i.toNat (s.regsUpTo x))).advance

/-- `LD Vx,[I]` (R185): `V0..Vx` from memory from `I`; `I` is not changed. -/
def execLdVxMem (x : Reg) (s : State) : Result :=
  guardData s (x.val + 1) (s.loadRegs s.i.toNat x).advance

end Sys2Proof.Machine
end

