-- ==== Sys2Proof/Machine/LoadAlu.lean ====
section
/-! DEFINITION. Register loads, the ALU group and RND (43_load_alu R160 to R174). -/

namespace Sys2Proof.Machine

/-- `LD Vx,kk` (R160). -/
def execLdVxKk (x : Reg) (kk : Byte) (s : State) : Result := .next (s.setReg x kk).advance

/-- `ADD Vx,kk` (R161): modulo 256, no flag. -/
def execAddVxKk (x : Reg) (kk : Byte) (s : State) : Result := .next (s.setReg x (s.reg x + kk)).advance

/-- `LD Vx,Vy` (R163). -/
def execLdVxVy (x y : Reg) (s : State) : Result := .next (s.setReg x (s.reg y)).advance

/-- `OR Vx,Vy` (R164). -/
def execOrVxVy (x y : Reg) (s : State) : Result := .next (s.setReg x (s.reg x ||| s.reg y)).advance

/-- `AND Vx,Vy` (R165). -/
def execAndVxVy (x y : Reg) (s : State) : Result := .next (s.setReg x (s.reg x &&& s.reg y)).advance

/-- `XOR Vx,Vy` (R166). -/
def execXorVxVy (x y : Reg) (s : State) : Result := .next (s.setReg x (s.reg x ^^^ s.reg y)).advance

/-- `ADD Vx,Vy` (R167): VF is the carry. -/
def execAddVxVy (x y : Reg) (s : State) : Result :=
  .next (s.setResultAndFlag x (s.reg x + s.reg y) (carryFlag (s.reg x) (s.reg y))).advance

/-- `SUB Vx,Vy` (R168): VF is `Vx > Vy`, strictly. -/
def execSubVxVy (x y : Reg) (s : State) : Result :=
  .next (s.setResultAndFlag x (s.reg x - s.reg y) (greaterFlag (s.reg x) (s.reg y))).advance

/-- `SHR Vx` (R169): one position, zero fill; VF is the old bit 0. -/
def execShrVx (x : Reg) (s : State) : Result :=
  .next (s.setResultAndFlag x (s.reg x >>> 1) (lowBitFlag (s.reg x))).advance

/-- `SUBN Vx,Vy` (R170): VF is `Vy > Vx`, strictly. -/
def execSubnVxVy (x y : Reg) (s : State) : Result :=
  .next (s.setResultAndFlag x (s.reg y - s.reg x) (greaterFlag (s.reg y) (s.reg x))).advance

/-- `SHL Vx` (R171): one position; VF is the old bit 7. -/
def execShlVx (x : Reg) (s : State) : Result :=
  .next (s.setResultAndFlag x (s.reg x <<< 1) (highBitFlag (s.reg x))).advance

/-- `RND Vx,kk` (R174): a free environment byte, masked; exactly one byte is consumed. -/
def execRndVxKk (x : Reg) (kk : Byte) (s : State) : Result :=
  .next ((s.setReg x (Config.draw s.draws &&& kk)).countDraw).advance

end Sys2Proof.Machine
end

