-- ==== Sys2Proof/Machine/Skips.lean ====
section
/-! DEFINITION. Conditional skips: SE, SNE, SKP, SKNP (42_skips R150 to R156). -/

namespace Sys2Proof.Machine

/-- `SE Vx,kk` (R151). -/
def execSeVxKk (x : Reg) (kk : Byte) (s : State) : Result := .next (s.skipIf (s.reg x == kk))

/-- `SNE Vx,kk` (R152). -/
def execSneVxKk (x : Reg) (kk : Byte) (s : State) : Result := .next (s.skipIf (s.reg x != kk))

/-- `SE Vx,Vy` (R153). -/
def execSeVxVy (x y : Reg) (s : State) : Result := .next (s.skipIf (s.reg x == s.reg y))

/-- `SNE Vx,Vy` (R154). -/
def execSneVxVy (x y : Reg) (s : State) : Result := .next (s.skipIf (s.reg x != s.reg y))

/-- A skip on the level of the key `V[x]` selects; `KeyIndexRange` if `V[x] > 15` (R155, R156). -/
def skipOnKey (x : Reg) (pressed : Bool) (s : State) : Result :=
  match keyIndex (s.reg x) with
  | none => raise (.keyIndexRange s.pc (s.reg x))
  | some k => .next (s.skipIf (s.keys[k] == pressed))

/-- `SKP Vx` (R155): skips if the key is pressed. -/
def execSkpVx (x : Reg) (s : State) : Result := skipOnKey x true s

/-- `SKNP Vx` (R156): skips if the key is not pressed. -/
def execSknpVx (x : Reg) (s : State) : Result := skipOnKey x false s

end Sys2Proof.Machine
end

