-- ==== Sys2Proof/Machine/TimersKeys.lean ====
section
/-! DEFINITION. Timer and keypad instructions (46_timers_and_keys R200 to R203). -/

namespace Sys2Proof.Machine

/-- `LD Vx,DT` (R200). -/
def execLdVxDt (x : Reg) (s : State) : Result := .next (s.setReg x s.dt).advance

/-- `LD Vx,K` (R201): the lowest pressed key; with no key pressed nothing changes, and the next step fetches this instruction again. -/
def execLdVxK (x : Reg) (s : State) : Result :=
  match s.lowestKey with
  | some k => .next (s.setReg x (keyByte k)).advance
  | none => .next s

/-- `LD DT,Vx` (R202). -/
def execLdDtVx (x : Reg) (s : State) : Result := .next (s.setDt (s.reg x)).advance

/-- `LD ST,Vx` (R203). -/
def execLdStVx (x : Reg) (s : State) : Result := .next (s.setSt (s.reg x)).advance

end Sys2Proof.Machine
end

