-- ==== Sys2Proof/Syntax.lean ====
section
/-! DEFINITION. The syntax of the 34 instructions: one constructor per row of spec/opcode_table.json (30_encoding R92, R94, R109).
Every operand has exactly the width of its field (R92, R93). The ignored bits of families 5, 9 and of the two shifts are no operand (R106). -/

namespace Sys2Proof

/-- An instruction, in the table's order; the docstring gives the assembly form of R109 and the row's pattern. -/
inductive Instr where
  /-- `CLS`, 00E0. -/
  | cls
  /-- `RET`, 00EE. -/
  | ret
  /-- `JP nnn`, 1nnn. -/
  | jpNnn (nnn : BitVec 12)
  /-- `CALL nnn`, 2nnn. -/
  | callNnn (nnn : BitVec 12)
  /-- `SE Vx,kk`, 3xkk. -/
  | seVxKk (x : Reg) (kk : Byte)
  /-- `SNE Vx,kk`, 4xkk. -/
  | sneVxKk (x : Reg) (kk : Byte)
  /-- `SE Vx,Vy`, 5xy*. -/
  | seVxVy (x y : Reg)
  /-- `LD Vx,kk`, 6xkk. -/
  | ldVxKk (x : Reg) (kk : Byte)
  /-- `ADD Vx,kk`, 7xkk. -/
  | addVxKk (x : Reg) (kk : Byte)
  /-- `LD Vx,Vy`, 8xy0. -/
  | ldVxVy (x y : Reg)
  /-- `OR Vx,Vy`, 8xy1. -/
  | orVxVy (x y : Reg)
  /-- `AND Vx,Vy`, 8xy2. -/
  | andVxVy (x y : Reg)
  /-- `XOR Vx,Vy`, 8xy3. -/
  | xorVxVy (x y : Reg)
  /-- `ADD Vx,Vy`, 8xy4. -/
  | addVxVy (x y : Reg)
  /-- `SUB Vx,Vy`, 8xy5. -/
  | subVxVy (x y : Reg)
  /-- `SHR Vx`, 8x*6. -/
  | shrVx (x : Reg)
  /-- `SUBN Vx,Vy`, 8xy7. -/
  | subnVxVy (x y : Reg)
  /-- `SHL Vx`, 8x*E. -/
  | shlVx (x : Reg)
  /-- `SNE Vx,Vy`, 9xy*. -/
  | sneVxVy (x y : Reg)
  /-- `LD I,nnn`, Annn. -/
  | ldINnn (nnn : BitVec 12)
  /-- `JP V0,nnn`, Bnnn. -/
  | jpV0Nnn (nnn : BitVec 12)
  /-- `RND Vx,kk`, Cxkk. -/
  | rndVxKk (x : Reg) (kk : Byte)
  /-- `DRW Vx,Vy,n`, Dxyn. -/
  | drwVxVyN (x y : Reg) (n : BitVec 4)
  /-- `SKP Vx`, Ex9E. -/
  | skpVx (x : Reg)
  /-- `SKNP Vx`, ExA1. -/
  | sknpVx (x : Reg)
  /-- `LD Vx,DT`, Fx07. -/
  | ldVxDt (x : Reg)
  /-- `LD Vx,K`, Fx0A. -/
  | ldVxK (x : Reg)
  /-- `LD DT,Vx`, Fx15. -/
  | ldDtVx (x : Reg)
  /-- `LD ST,Vx`, Fx18. -/
  | ldStVx (x : Reg)
  /-- `ADD I,Vx`, Fx1E. -/
  | addIVx (x : Reg)
  /-- `LD F,Vx`, Fx29. -/
  | ldFVx (x : Reg)
  /-- `LD B,Vx`, Fx33. -/
  | ldBVx (x : Reg)
  /-- `LD [I],Vx`, Fx55. -/
  | ldMemVx (x : Reg)
  /-- `LD Vx,[I]`, Fx65. -/
  | ldVxMem (x : Reg)
deriving DecidableEq, Repr

end Sys2Proof
end

