-- ==== Sys2Proof/Decode.lean ====
section
/-! DEFINITION. Decoding, total on all 65536 opcode values and on all byte lists (30_encoding R91 to R108), and after it the encoder of canonical words. -/

namespace Sys2Proof

/-! ### The fields of an opcode (R92) -/

/-- `op[15:12]`, the family. -/
def opFamily (op : Word16) : BitVec 4 := op.extractLsb' 12 4

/-- `x = op[11:8]`, a register selector. -/
def opX (op : Word16) : Reg := (op.extractLsb' 8 4).toFin

/-- `y = op[7:4]`, the second register selector. -/
def opY (op : Word16) : Reg := (op.extractLsb' 4 4).toFin

/-- `n = op[3:0]`. -/
def opN (op : Word16) : BitVec 4 := op.extractLsb' 0 4

/-- `kk = op[7:0]`. -/
def opKk (op : Word16) : Byte := op.extractLsb' 0 8

/-- `nnn = op[11:0]`. -/
def opNnn (op : Word16) : BitVec 12 := op.extractLsb' 0 12

/-! ### The decode function (R94) -/

/-- What an opcode value decodes to: an instruction, or `UNKNOWN`, which carries the opcode (R94, R124). -/
inductive Decoded where
  | instr (i : Instr)
  | unknown (op : Word16)
deriving DecidableEq, Repr

/-- Family 0x0: the whole word is compared (R95). -/
def decodeFamily0 (op : Word16) : Decoded :=
  if op = 0x00E0#16 then .instr .cls
  else if op = 0x00EE#16 then .instr .ret
  else .unknown op

/-- Family 0x8, the ALU group: the selector is the low nibble; `SHR` and `SHL` ignore `y` (R99). -/
def decodeFamily8 (op : Word16) : Decoded :=
  match (opN op).toNat with
  | 0x0 => .instr (.ldVxVy (opX op) (opY op))
  | 0x1 => .instr (.orVxVy (opX op) (opY op))
  | 0x2 => .instr (.andVxVy (opX op) (opY op))
  | 0x3 => .instr (.xorVxVy (opX op) (opY op))
  | 0x4 => .instr (.addVxVy (opX op) (opY op))
  | 0x5 => .instr (.subVxVy (opX op) (opY op))
  | 0x6 => .instr (.shrVx (opX op))
  | 0x7 => .instr (.subnVxVy (opX op) (opY op))
  | 0xE => .instr (.shlVx (opX op))
  | _ => .unknown op

/-- Family 0xE: the selector is the low byte (R102). -/
def decodeFamilyE (op : Word16) : Decoded :=
  match (opKk op).toNat with
  | 0x9E => .instr (.skpVx (opX op))
  | 0xA1 => .instr (.sknpVx (opX op))
  | _ => .unknown op

/-- Family 0xF: the selector is the low byte (R103). -/
def decodeFamilyF (op : Word16) : Decoded :=
  match (opKk op).toNat with
  | 0x07 => .instr (.ldVxDt (opX op))
  | 0x0A => .instr (.ldVxK (opX op))
  | 0x15 => .instr (.ldDtVx (opX op))
  | 0x18 => .instr (.ldStVx (opX op))
  | 0x1E => .instr (.addIVx (opX op))
  | 0x29 => .instr (.ldFVx (opX op))
  | 0x33 => .instr (.ldBVx (opX op))
  | 0x55 => .instr (.ldMemVx (opX op))
  | 0x65 => .instr (.ldVxMem (opX op))
  | _ => .unknown op

/-- The decode function of R94: "top nibble selects a family"; families 0x0, 0x8, 0xE, 0xF use a secondary selector.
Families 0x5 and 0x9 do not examine the low nibble (R97, R100). -/
def decodeWord (op : Word16) : Decoded :=
  match (opFamily op).toNat with
  | 0x0 => decodeFamily0 op
  | 0x1 => .instr (.jpNnn (opNnn op))
  | 0x2 => .instr (.callNnn (opNnn op))
  | 0x3 => .instr (.seVxKk (opX op) (opKk op))
  | 0x4 => .instr (.sneVxKk (opX op) (opKk op))
  | 0x5 => .instr (.seVxVy (opX op) (opY op))
  | 0x6 => .instr (.ldVxKk (opX op) (opKk op))
  | 0x7 => .instr (.addVxKk (opX op) (opKk op))
  | 0x8 => decodeFamily8 op
  | 0x9 => .instr (.sneVxVy (opX op) (opY op))
  | 0xA => .instr (.ldINnn (opNnn op))
  | 0xB => .instr (.jpV0Nnn (opNnn op))
  | 0xC => .instr (.rndVxKk (opX op) (opKk op))
  | 0xD => .instr (.drwVxVyN (opX op) (opY op) (opN op))
  | 0xE => decodeFamilyE op
  | _ => decodeFamilyF op

/-- The 16-bit big-endian value of two bytes, the first at the lower address (20_memory R63). -/
def wordOfBytes (hi lo : Byte) : Word16 := hi ++ lo

/-- What a byte list decodes to: an instruction and the bytes after it, an unknown opcode and the bytes after it, or too few bytes for an opcode. -/
inductive DecodeResult where
  | instr (i : Instr) (rest : List Byte)
  | unknownOpcode (op : Word16) (rest : List Byte)
  | truncated
deriving DecidableEq, Repr

/-- Decoding from bytes: every instruction is exactly two bytes, big-endian (R91, R63). -/
def decode : List Byte → DecodeResult
  | hi :: lo :: rest =>
    match decodeWord (wordOfBytes hi lo) with
    | .instr i => .instr i rest
    | .unknown op => .unknownOpcode op rest
  | _ => .truncated

/-! ### The encoder (R92 to R103) -/

/-- Format `NNN`: family, 12-bit address (R92). -/
def encNnn (f : BitVec 4) (nnn : BitVec 12) : Word16 := f ++ nnn

/-- Formats `XKK` and `XSS`: family, register, constant or low-byte selector (R92). -/
def encXkk (f : BitVec 4) (x : Reg) (kk : Byte) : Word16 := f ++ (BitVec.ofFin x : BitVec 4) ++ kk

/-- Formats `XY`, `XYS` and `XYN`: family, two registers, low nibble (R92). -/
def encXyn (f : BitVec 4) (x y : Reg) (n : BitVec 4) : Word16 :=
  f ++ (BitVec.ofFin x : BitVec 4) ++ (BitVec.ofFin y : BitVec 4) ++ n

/-- The canonical word of an instruction: the ignored bits are 0 (R97, R99, R100). -/
def encode : Instr → Word16
  | .cls => 0x00E0#16
  | .ret => 0x00EE#16
  | .jpNnn nnn => encNnn 0x1 nnn
  | .callNnn nnn => encNnn 0x2 nnn
  | .seVxKk x kk => encXkk 0x3 x kk
  | .sneVxKk x kk => encXkk 0x4 x kk
  | .seVxVy x y => encXyn 0x5 x y 0x0
  | .ldVxKk x kk => encXkk 0x6 x kk
  | .addVxKk x kk => encXkk 0x7 x kk
  | .ldVxVy x y => encXyn 0x8 x y 0x0
  | .orVxVy x y => encXyn 0x8 x y 0x1
  | .andVxVy x y => encXyn 0x8 x y 0x2
  | .xorVxVy x y => encXyn 0x8 x y 0x3
  | .addVxVy x y => encXyn 0x8 x y 0x4
  | .subVxVy x y => encXyn 0x8 x y 0x5
  | .shrVx x => encXyn 0x8 x 0 0x6
  | .subnVxVy x y => encXyn 0x8 x y 0x7
  | .shlVx x => encXyn 0x8 x 0 0xE
  | .sneVxVy x y => encXyn 0x9 x y 0x0
  | .ldINnn nnn => encNnn 0xA nnn
  | .jpV0Nnn nnn => encNnn 0xB nnn
  | .rndVxKk x kk => encXkk 0xC x kk
  | .drwVxVyN x y n => encXyn 0xD x y n
  | .skpVx x => encXkk 0xE x 0x9E
  | .sknpVx x => encXkk 0xE x 0xA1
  | .ldVxDt x => encXkk 0xF x 0x07
  | .ldVxK x => encXkk 0xF x 0x0A
  | .ldDtVx x => encXkk 0xF x 0x15
  | .ldStVx x => encXkk 0xF x 0x18
  | .addIVx x => encXkk 0xF x 0x1E
  | .ldFVx x => encXkk 0xF x 0x29
  | .ldBVx x => encXkk 0xF x 0x33
  | .ldMemVx x => encXkk 0xF x 0x55
  | .ldVxMem x => encXkk 0xF x 0x65

/-- A word as the two bytes memory holds, the high byte first (R63). -/
def bytesOfWord (op : Word16) : List Byte := [op.extractLsb' 8 8, op.extractLsb' 0 8]

/-- The bytes of an instruction's canonical word. -/
def encodeBytes (i : Instr) : List Byte := bytesOfWord (encode i)

/-! ### The opcode map in mask and match form (R95 to R103, spec/opcode_table.json) -/

/-- A row of the opcode map: an opcode belongs to it iff `op &&& mask = value`. -/
structure OpcodePattern where
  mask : Word16
  value : Word16
deriving DecidableEq, Repr

/-- The row of an instruction, as R95 to R103 print its mask and match. -/
def Instr.pattern : Instr → OpcodePattern
  | .cls => ⟨0xFFFF#16, 0x00E0#16⟩
  | .ret => ⟨0xFFFF#16, 0x00EE#16⟩
  | .jpNnn _ => ⟨0xF000#16, 0x1000#16⟩
  | .callNnn _ => ⟨0xF000#16, 0x2000#16⟩
  | .seVxKk _ _ => ⟨0xF000#16, 0x3000#16⟩
  | .sneVxKk _ _ => ⟨0xF000#16, 0x4000#16⟩
  | .seVxVy _ _ => ⟨0xF000#16, 0x5000#16⟩
  | .ldVxKk _ _ => ⟨0xF000#16, 0x6000#16⟩
  | .addVxKk _ _ => ⟨0xF000#16, 0x7000#16⟩
  | .ldVxVy _ _ => ⟨0xF00F#16, 0x8000#16⟩
  | .orVxVy _ _ => ⟨0xF00F#16, 0x8001#16⟩
  | .andVxVy _ _ => ⟨0xF00F#16, 0x8002#16⟩
  | .xorVxVy _ _ => ⟨0xF00F#16, 0x8003#16⟩
  | .addVxVy _ _ => ⟨0xF00F#16, 0x8004#16⟩
  | .subVxVy _ _ => ⟨0xF00F#16, 0x8005#16⟩
  | .shrVx _ => ⟨0xF00F#16, 0x8006#16⟩
  | .subnVxVy _ _ => ⟨0xF00F#16, 0x8007#16⟩
  | .shlVx _ => ⟨0xF00F#16, 0x800E#16⟩
  | .sneVxVy _ _ => ⟨0xF000#16, 0x9000#16⟩
  | .ldINnn _ => ⟨0xF000#16, 0xA000#16⟩
  | .jpV0Nnn _ => ⟨0xF000#16, 0xB000#16⟩
  | .rndVxKk _ _ => ⟨0xF000#16, 0xC000#16⟩
  | .drwVxVyN _ _ _ => ⟨0xF000#16, 0xD000#16⟩
  | .skpVx _ => ⟨0xF0FF#16, 0xE09E#16⟩
  | .sknpVx _ => ⟨0xF0FF#16, 0xE0A1#16⟩
  | .ldVxDt _ => ⟨0xF0FF#16, 0xF007#16⟩
  | .ldVxK _ => ⟨0xF0FF#16, 0xF00A#16⟩
  | .ldDtVx _ => ⟨0xF0FF#16, 0xF015#16⟩
  | .ldStVx _ => ⟨0xF0FF#16, 0xF018#16⟩
  | .addIVx _ => ⟨0xF0FF#16, 0xF01E#16⟩
  | .ldFVx _ => ⟨0xF0FF#16, 0xF029#16⟩
  | .ldBVx _ => ⟨0xF0FF#16, 0xF033#16⟩
  | .ldMemVx _ => ⟨0xF0FF#16, 0xF055#16⟩
  | .ldVxMem _ => ⟨0xF0FF#16, 0xF065#16⟩

/-- The opcode lies in the instruction's row. -/
def Instr.matches (i : Instr) (op : Word16) : Prop := op &&& i.pattern.mask = i.pattern.value

/-- The bits of an instruction's words that take part in no decision and no operand (R106). -/
def Instr.ignoredBits : Instr → Word16
  | .seVxVy _ _ | .sneVxVy _ _ => 0x000F#16
  | .shrVx _ | .shlVx _ => 0x00F0#16
  | _ => 0x0000#16

/-! ### The host's probe -/

/-- The instruction the decoder reads from the word `w` of `nbits` bits, laid out in memory's byte order, or none for an unknown opcode. -/
def decodeTableWord (nbits w : Nat) : Option Instr :=
  match decode (bytesOfWord (BitVec.ofNat 16 (w % 2 ^ nbits))) with
  | .instr i _ => some i
  | .unknownOpcode _ _ => none
  | .truncated => none

end Sys2Proof
end

