-- ==== Sys2Proof/Machine/Fetch.lean ====
section
/-! DEFINITION. Instruction fetch (40_step_and_dispatch R121), what an unknown opcode does (R124), and the placing of a word where the next fetch reads it. -/

namespace Sys2Proof.Machine

/-- The fetch succeeds iff `pc0 + 1 < 4096`, in unbounded arithmetic (R67, R121). -/
def State.fetchable (s : State) : Bool := decide (s.pc.toNat + 1 < Config.memSize)

/-- `op = MemRead(pc0, 2)`, big-endian (R63, R121). -/
def State.fetchWord (s : State) : Word16 := wordOfBytes (s.mem.read s.pc.toNat) (s.mem.read (s.pc.toNat + 1))

/-- `raise OutOfBounds(kind = fetch, address = pc0)` (R121). -/
def raiseFetch (s : State) : Result := raise (.outOfBounds .fetch s.pc s.pc)

/-- `UNKNOWN`: a no-op that advances `pc` by 2; the report goes with the outcome of the step (R105, R124, R225). -/
def execUnknown (s : State) : State := s.advance

/-- `s` with the bytes of a word stored at `pc`, the high byte first. -/
def State.placeWord (s : State) (op : Word16) : State :=
  s.setMem (s.mem.writeBytes s.pc.toNat (bytesOfWord op))

end Sys2Proof.Machine
end

