-- ==== Sys2Proof/Machine/Step.lean ====
section
/-! DEFINITION. One step of CORE: fetch, decode, execute (40_step_and_dispatch R120), with the report of an unknown opcode as part of the outcome. -/

namespace Sys2Proof.Machine

/-- The outcomes of a step as R120 lists them, and the refusal that the host's interface adds (no step of this model ends in it). -/
inductive CycleOutcome where
  /-- `Next(state')`. -/
  | next (s : State)
  /-- `NextWithReport(state', UnknownOpcode(op))`. -/
  | nextWithReport (s : State) (op : Word16)
  /-- `Fault(cause, info)`; the state is unchanged. -/
  | fault (f : Fault)
  | refused (r : Refusal)
deriving DecidableEq, Repr

/-- An instruction's outcome as a step's: an instruction reports nothing (R229). -/
def CycleOutcome.ofResult : Result → CycleOutcome
  | .next s => .next s
  | .fault f => .fault f
  | .refused r => .refused r

/-- A step's outcome in the host's three: the report, which is no part of the state, is left to `cycle` (log entry 2). -/
def CycleOutcome.toResult : CycleOutcome → Result
  | .next s => .next s
  | .nextWithReport s _ => .next s
  | .fault f => .fault f
  | .refused r => .refused r

/-- `step` of R120 with its report: the fetch check, the fetch, the decode, then one instruction or `UNKNOWN` (R121 to R125, R229). -/
def cycle (s : State) : CycleOutcome :=
  if s.fetchable then
    match decodeWord s.fetchWord with
    | .instr i => .ofResult (exec i s)
    | .unknown op => .nextWithReport (execUnknown s) op
  else .ofResult (raiseFetch s)

/-- `step` of R120. -/
def step (s : State) : Host.Outcome State Fault Refusal := (cycle s).toResult

/-- `s` with the word `w` of `nbits` bits stored at `pc`, where `step` fetches its next instruction, the high byte at the lower address (R63). -/
def State.withFetchWord (s : State) (nbits w : Nat) : State := s.placeWord (BitVec.ofNat 16 (w % 2 ^ nbits))

end Sys2Proof.Machine
end

