-- ==== Sys2Proof/Laws/Decode.lean ====
section
/-! SUPPORT. The fields of an opcode as numbers, the fields of encoded words, and what decides that a word lies in a row of the opcode map (30_encoding R92 to R103). -/

namespace Sys2Proof

/-! ### Words as numbers -/

theorem append_toNat {m n : Nat} (a : BitVec m) (b : BitVec n) : (a ++ b).toNat = a.toNat * 2 ^ n + b.toNat := by
  rw [BitVec.toNat_append, ← Nat.shiftLeft_add_eq_or_of_lt b.isLt, Nat.shiftLeft_eq]

theorem encNnn_toNat (f : BitVec 4) (nnn : BitVec 12) : (encNnn f nnn).toNat = f.toNat * 4096 + nnn.toNat :=
  append_toNat f nnn

theorem encXkk_toNat (f : BitVec 4) (x : Reg) (kk : Byte) :
    (encXkk f x kk).toNat = f.toNat * 4096 + x.val * 256 + kk.toNat := by
  have h : (encXkk f x kk).toNat = (f ++ (BitVec.ofFin x : BitVec 4)).toNat * 256 + kk.toNat := append_toNat _ kk
  rw [h, append_toNat]
  show (f.toNat * 16 + x.val) * 256 + kk.toNat = _
  omega

theorem encXyn_toNat (f : BitVec 4) (x y : Reg) (n : BitVec 4) :
    (encXyn f x y n).toNat = f.toNat * 4096 + x.val * 256 + y.val * 16 + n.toNat := by
  have h : (encXyn f x y n).toNat =
      (f ++ (BitVec.ofFin x : BitVec 4) ++ (BitVec.ofFin y : BitVec 4)).toNat * 16 + n.toNat := append_toNat _ n
  rw [h, append_toNat, append_toNat]
  show ((f.toNat * 16 + x.val) * 16 + y.val) * 16 + n.toNat = _
  omega

/-! ### Fields as numbers (R92) -/

theorem opFamily_toNat (op : Word16) : (opFamily op).toNat = op.toNat / 4096 := by
  have := op.isLt
  simp [opFamily, Nat.shiftRight_eq_div_pow]; omega

theorem opX_val (op : Word16) : (opX op).val = op.toNat / 256 % 16 := by
  show (op.extractLsb' 8 4).toNat = _
  simp [Nat.shiftRight_eq_div_pow]

theorem opY_val (op : Word16) : (opY op).val = op.toNat / 16 % 16 := by
  show (op.extractLsb' 4 4).toNat = _
  simp [Nat.shiftRight_eq_div_pow]

theorem opN_toNat (op : Word16) : (opN op).toNat = op.toNat % 16 := by
  simp [opN]

theorem opKk_toNat (op : Word16) : (opKk op).toNat = op.toNat % 256 := by
  simp [opKk]

theorem opNnn_toNat (op : Word16) : (opNnn op).toNat = op.toNat % 4096 := by
  simp [opNnn]

/-! ### The fields of encoded words -/

@[simp] theorem opFamily_encNnn (f : BitVec 4) (nnn : BitVec 12) : opFamily (encNnn f nnn) = f := by
  apply BitVec.eq_of_toNat_eq
  have := nnn.isLt
  rw [opFamily_toNat, encNnn_toNat]; omega

@[simp] theorem opNnn_encNnn (f : BitVec 4) (nnn : BitVec 12) : opNnn (encNnn f nnn) = nnn := by
  apply BitVec.eq_of_toNat_eq
  have := nnn.isLt
  rw [opNnn_toNat, encNnn_toNat]; omega

@[simp] theorem opFamily_encXkk (f : BitVec 4) (x : Reg) (kk : Byte) : opFamily (encXkk f x kk) = f := by
  apply BitVec.eq_of_toNat_eq
  have := x.isLt
  have := kk.isLt
  rw [opFamily_toNat, encXkk_toNat]; omega

@[simp] theorem opX_encXkk (f : BitVec 4) (x : Reg) (kk : Byte) : opX (encXkk f x kk) = x := by
  apply Fin.ext
  have := x.isLt
  have := kk.isLt
  rw [opX_val, encXkk_toNat]; omega

@[simp] theorem opKk_encXkk (f : BitVec 4) (x : Reg) (kk : Byte) : opKk (encXkk f x kk) = kk := by
  apply BitVec.eq_of_toNat_eq
  have := kk.isLt
  rw [opKk_toNat, encXkk_toNat]; omega

@[simp] theorem opFamily_encXyn (f : BitVec 4) (x y : Reg) (n : BitVec 4) : opFamily (encXyn f x y n) = f := by
  apply BitVec.eq_of_toNat_eq
  have := x.isLt
  have := y.isLt
  have := n.isLt
  rw [opFamily_toNat, encXyn_toNat]; omega

@[simp] theorem opX_encXyn (f : BitVec 4) (x y : Reg) (n : BitVec 4) : opX (encXyn f x y n) = x := by
  apply Fin.ext
  have := x.isLt
  have := y.isLt
  have := n.isLt
  rw [opX_val, encXyn_toNat]; omega

@[simp] theorem opY_encXyn (f : BitVec 4) (x y : Reg) (n : BitVec 4) : opY (encXyn f x y n) = y := by
  apply Fin.ext
  have := y.isLt
  have := n.isLt
  rw [opY_val, encXyn_toNat]; omega

@[simp] theorem opN_encXyn (f : BitVec 4) (x y : Reg) (n : BitVec 4) : opN (encXyn f x y n) = n := by
  apply BitVec.eq_of_toNat_eq
  have := n.isLt
  rw [opN_toNat, encXyn_toNat]; omega

/-- The two bytes of a word give it back (R63). -/
@[simp] theorem wordOfBytes_split (op : Word16) : wordOfBytes (op.extractLsb' 8 8) (op.extractLsb' 0 8) = op := by
  apply BitVec.eq_of_toNat_eq
  have := op.isLt
  have h : (wordOfBytes (op.extractLsb' 8 8) (op.extractLsb' 0 8)).toNat =
      (op.extractLsb' 8 8).toNat * 256 + (op.extractLsb' 0 8).toNat := append_toNat _ _
  rw [h]
  simp [Nat.shiftRight_eq_div_pow]; omega

/-- The big-endian value of two bytes: `MemRead(a,1) * 256 + MemRead(a+1,1)` (R63). -/
theorem wordOfBytes_toNat (hi lo : Byte) : (wordOfBytes hi lo).toNat = hi.toNat * 256 + lo.toNat := append_toNat hi lo

/-! ### Masks of the opcode map -/

theorem and_F000_toNat (op : Word16) : (op &&& 0xF000#16).toNat = op.toNat / 4096 * 4096 := by
  have h : op &&& 0xF000#16 = (op >>> 12) <<< 12 := by
    apply BitVec.eq_of_getLsbD_eq; intro i hi
    have : ∀ i : Fin 16, (0xF000#16).getLsbD i.val = decide (12 ≤ i.val) := by decide
    have hm := this ⟨i, hi⟩
    simp only [BitVec.getLsbD_and, hm, BitVec.getLsbD_shiftLeft, BitVec.getLsbD_ushiftRight]
    by_cases h : 12 ≤ i
    · simp [h, hi, Nat.add_sub_cancel' h, Nat.not_lt.mpr h]
    · simp [h, Nat.lt_of_not_le h]
  rw [h]
  have := op.isLt
  simp [Nat.shiftRight_eq_div_pow, Nat.shiftLeft_eq]; omega

theorem and_000F_toNat (op : Word16) : (op &&& 0x000F#16).toNat = op.toNat % 16 := by
  rw [BitVec.toNat_and]; exact Nat.and_two_pow_sub_one_eq_mod op.toNat 4

theorem and_00FF_toNat (op : Word16) : (op &&& 0x00FF#16).toNat = op.toNat % 256 := by
  rw [BitVec.toNat_and]; exact Nat.and_two_pow_sub_one_eq_mod op.toNat 8

/-- A word lies in a row with mask 0xF000 iff its top nibble is the row's. -/
theorem and_F000_eq (op v : Word16) (hv : v.toNat % 4096 = 0) :
    op &&& 0xF000#16 = v ↔ op.toNat / 4096 = v.toNat / 4096 := by
  rw [← BitVec.toNat_inj, and_F000_toNat]; omega

theorem and_split_toNat (op lo : Word16) (k : Nat) (h : (op &&& lo).toNat = op.toNat % k)
    (hk' : k ≤ 4096) (hk0 : 0 < k) :
    (op &&& (0xF000#16 ||| lo)).toNat = op.toNat / 4096 * 4096 + op.toNat % k := by
  have hor : op &&& (0xF000#16 ||| lo) = (op &&& 0xF000#16) ||| (op &&& lo) := by
    apply BitVec.eq_of_getLsbD_eq; intro i hi
    simp [Bool.and_or_distrib_left]
  have hlt : op.toNat % k < 2 ^ 12 := Nat.lt_of_lt_of_le (Nat.mod_lt _ hk0) hk'
  rw [hor, BitVec.toNat_or, and_F000_toNat, h, show op.toNat / 4096 * 4096 = (op.toNat / 4096) <<< 12 from
    (Nat.shiftLeft_eq _ 12).symm, Nat.shiftLeft_add_eq_or_of_lt hlt]

/-- A word lies in a row with mask 0xF00F iff its top and low nibbles are the row's. -/
theorem and_F00F_eq (op v : Word16) (hv : v.toNat % 4096 < 16) :
    op &&& 0xF00F#16 = v ↔ op.toNat / 4096 = v.toNat / 4096 ∧ op.toNat % 16 = v.toNat % 16 := by
  rw [← BitVec.toNat_inj, show 0xF00F#16 = 0xF000#16 ||| 0x000F#16 by decide,
    and_split_toNat op 0x000F#16 16 (and_000F_toNat op) (by decide) (by decide)]; omega

/-- A word lies in a row with mask 0xF0FF iff its top nibble and low byte are the row's. -/
theorem and_F0FF_eq (op v : Word16) (hv : v.toNat % 4096 < 256) :
    op &&& 0xF0FF#16 = v ↔ op.toNat / 4096 = v.toNat / 4096 ∧ op.toNat % 256 = v.toNat % 256 := by
  rw [← BitVec.toNat_inj, show 0xF0FF#16 = 0xF000#16 ||| 0x00FF#16 by decide,
    and_split_toNat op 0x00FF#16 256 (and_00FF_toNat op) (by decide) (by decide)]; omega

end Sys2Proof
end

