-- ==== Sys2Proof/Laws/PerInstr.lean ====
section
/-! SUPPORT. The statements made per instruction, one lemma per constructor of `Instr`.
`RoundTrip`: the decoder reads an instruction's canonical word as that instruction, with every operand at every value (30_encoding R92 to R103). -/

namespace Sys2Proof.Laws.RoundTrip

/-- The word of an instruction decodes to it. -/
def Statement (i : Instr) : Prop := decodeWord (encode i) = .instr i

theorem cls : Statement (.cls) := rfl

theorem ret : Statement (.ret) := rfl

theorem jpNnn (nnn : BitVec 12) : Statement (.jpNnn nnn) := by simp [Statement, encode, decodeWord]

theorem callNnn (nnn : BitVec 12) : Statement (.callNnn nnn) := by simp [Statement, encode, decodeWord]

theorem seVxKk (x : Reg) (kk : Byte) : Statement (.seVxKk x kk) := by simp [Statement, encode, decodeWord]

theorem sneVxKk (x : Reg) (kk : Byte) : Statement (.sneVxKk x kk) := by simp [Statement, encode, decodeWord]

theorem seVxVy (x y : Reg) : Statement (.seVxVy x y) := by simp [Statement, encode, decodeWord]

theorem ldVxKk (x : Reg) (kk : Byte) : Statement (.ldVxKk x kk) := by simp [Statement, encode, decodeWord]

theorem addVxKk (x : Reg) (kk : Byte) : Statement (.addVxKk x kk) := by simp [Statement, encode, decodeWord]

theorem ldVxVy (x y : Reg) : Statement (.ldVxVy x y) := by simp [Statement, encode, decodeWord, decodeFamily8]

theorem orVxVy (x y : Reg) : Statement (.orVxVy x y) := by simp [Statement, encode, decodeWord, decodeFamily8]

theorem andVxVy (x y : Reg) : Statement (.andVxVy x y) := by simp [Statement, encode, decodeWord, decodeFamily8]

theorem xorVxVy (x y : Reg) : Statement (.xorVxVy x y) := by simp [Statement, encode, decodeWord, decodeFamily8]

theorem addVxVy (x y : Reg) : Statement (.addVxVy x y) := by simp [Statement, encode, decodeWord, decodeFamily8]

theorem subVxVy (x y : Reg) : Statement (.subVxVy x y) := by simp [Statement, encode, decodeWord, decodeFamily8]

theorem shrVx (x : Reg) : Statement (.shrVx x) := by simp [Statement, encode, decodeWord, decodeFamily8]

theorem subnVxVy (x y : Reg) : Statement (.subnVxVy x y) := by simp [Statement, encode, decodeWord, decodeFamily8]

theorem shlVx (x : Reg) : Statement (.shlVx x) := by simp [Statement, encode, decodeWord, decodeFamily8]

theorem sneVxVy (x y : Reg) : Statement (.sneVxVy x y) := by simp [Statement, encode, decodeWord]

theorem ldINnn (nnn : BitVec 12) : Statement (.ldINnn nnn) := by simp [Statement, encode, decodeWord]

theorem jpV0Nnn (nnn : BitVec 12) : Statement (.jpV0Nnn nnn) := by simp [Statement, encode, decodeWord]

theorem rndVxKk (x : Reg) (kk : Byte) : Statement (.rndVxKk x kk) := by simp [Statement, encode, decodeWord]

theorem drwVxVyN (x y : Reg) (n : BitVec 4) : Statement (.drwVxVyN x y n) := by simp [Statement, encode, decodeWord]

theorem skpVx (x : Reg) : Statement (.skpVx x) := by simp [Statement, encode, decodeWord, decodeFamilyE]

theorem sknpVx (x : Reg) : Statement (.sknpVx x) := by simp [Statement, encode, decodeWord, decodeFamilyE]

theorem ldVxDt (x : Reg) : Statement (.ldVxDt x) := by simp [Statement, encode, decodeWord, decodeFamilyF]

theorem ldVxK (x : Reg) : Statement (.ldVxK x) := by simp [Statement, encode, decodeWord, decodeFamilyF]

theorem ldDtVx (x : Reg) : Statement (.ldDtVx x) := by simp [Statement, encode, decodeWord, decodeFamilyF]

theorem ldStVx (x : Reg) : Statement (.ldStVx x) := by simp [Statement, encode, decodeWord, decodeFamilyF]

theorem addIVx (x : Reg) : Statement (.addIVx x) := by simp [Statement, encode, decodeWord, decodeFamilyF]

theorem ldFVx (x : Reg) : Statement (.ldFVx x) := by simp [Statement, encode, decodeWord, decodeFamilyF]

theorem ldBVx (x : Reg) : Statement (.ldBVx x) := by simp [Statement, encode, decodeWord, decodeFamilyF]

theorem ldMemVx (x : Reg) : Statement (.ldMemVx x) := by simp [Statement, encode, decodeWord, decodeFamilyF]

theorem ldVxMem (x : Reg) : Statement (.ldVxMem x) := by simp [Statement, encode, decodeWord, decodeFamilyF]

end Sys2Proof.Laws.RoundTrip
end

