-- ==== Sys2Proof/WellFormed.lean ====
section
/-! DEFINITION. The static checks of the machine's inputs.
An `Instr` needs no check of its own: each operand's type has exactly the values of its field (30_encoding R92, R93), so an instruction that does not fit its encoding cannot be written.
What can be ill-formed is what HOST hands in: an image that is too long (20_memory R61, 47_host_operations R210) and a key index above 15 (R212). -/

namespace Sys2Proof

/-- The image lengths `loadProgram` accepts, up to 3584 bytes (R210): "program length + 0x200 ≤ 4096" (R61). -/
def imageFits (bytes : List Byte) : Bool := decide (bytes.length ≤ Config.maxImage)

/-- The key indices of the contract of `setKey`, 0 to 15 (R212). -/
def keyIndexFits (k : Nat) : Bool := decide (k < 16)

end Sys2Proof
end

