-- ==== Sys2Proof/Machine/Environment.lean ====
section
/-! DEFINITION. The operations of the environment (agents TICK and HOST): loadProgram, tickTimers, setKey, getFramebuffer, takeRedraw (47_host_operations R210 to R214). Each is atomic (R12). -/

namespace Sys2Proof.Machine

/-- `loadProgram(bytes)` (R210): the image verbatim from 0x200, or none for `ImageTooLarge`, which copies nothing. Nothing else changes. -/
def loadProgram (bytes : List Byte) (s : State) : Option State :=
  if imageFits bytes then some (s.setMem (s.mem.writeBytes Config.progBase bytes)) else none

/-- One timer's tick: down by 1, never below zero (R211). -/
def countDown (b : Byte) : Byte := if b.toNat = 0 then b else b - 1

/-- `tickTimers()` (R211): both timers, each on its own. -/
def tickTimers (s : State) : State := (s.setDt (countDown s.dt)).setSt (countDown s.st)

/-- `setKey(index, pressed)` (R212); none for an index above 15, which is outside the contract. -/
def setKey (index : Nat) (pressed : Bool) (s : State) : Option State :=
  if h : keyIndexFits index then some (s.putKey ⟨index, of_decide_eq_true h⟩ pressed) else none

/-- `getFramebuffer()`: the grid of booleans; the state does not change (R213). -/
def getFramebuffer (s : State) : Framebuffer := s.fb

/-- `PIXEL_ON` and 0: the 32-bit form of a pixel (R33, R193, R213; the parameter of R7). -/
def widePixel (b : Bool) : BitVec 32 := if b then 0xFFFFFFFF else 0x00000000

/-- The linear index of a pixel in a flat array (R193). -/
def pixelIndex (r c : Nat) : Nat := r * Config.fbW + c

/-- `takeRedraw()`: the value of `REDRAW` before, and `REDRAW` cleared (R214). -/
def takeRedraw (s : State) : Bool × State := (s.redraw, s.setRedraw false)

end Sys2Proof.Machine
end

