-- ==== Sys2Proof/Machine/Run.lean ====
section
/-! DEFINITION. A run of CORE with its environment: the operations of the three agents in any order the spec allows, and what each gives back (10_state R50; 47_host_operations R215, R216; 70_reset_and_hazards R251, R253, R255, R261). -/

namespace Sys2Proof.Machine

/-- How far a run has come: what decides whether `loadProgram` and `step` are allowed (R215, R253). -/
inductive Phase where
  /-- After reset, no image loaded and no step done. -/
  | fresh
  /-- An image is loaded and no step done. -/
  | loaded
  /-- At least one step done. -/
  | running
  /-- A step has faulted: the run is over (R216, R227). -/
  | ended (f : Fault)
deriving DecidableEq, Repr

/-- An operation of CPU (`step`), TICK (`tickTimers`) or HOST (the others) (R50). `reset` occurs once, first, and is `Session.start` (R251). -/
inductive Op where
  | step
  | tickTimers
  | loadProgram (bytes : List Byte)
  | setKey (index : Nat) (pressed : Bool)
  | getFramebuffer
  | takeRedraw
deriving DecidableEq, Repr

/-- What an operation gives back to HOST. -/
inductive Reply where
  | done
  /-- The non-fatal report of a step (R225). -/
  | unknownOpcode (op : Word16)
  /-- The fatal outcome of a step (R227). -/
  | fault (f : Fault)
  /-- The failure of `loadProgram`, recoverable by a smaller image (R210, R220). -/
  | imageTooLarge
  | framebuffer (fb : Framebuffer)
  | redraw (needed : Bool)
deriving DecidableEq, Repr

/-- The reference code of a reply that R220 numbers; a label only (decision D20, log entry 20). -/
def replyCode : Reply → Option Nat
  | .fault f => some (faultCode f)
  | .unknownOpcode _ => some 6
  | .imageTooLarge => some 7
  | .done | .framebuffer _ | .redraw _ => none

/-- An operation HOST must not do here: it has no transition (R215). -/
inductive OpRefusal where
  /-- `loadProgram` after a step, or a second one (R210, R261; "undefined by design"). Safe: the model goes on nowhere. -/
  | loadMidRun
  /-- `setKey` with an index above 15 (R212). Safe. -/
  | keyIndex (index : Nat)
  /-- Any operation after a fault (R216, R227). Safe. -/
  | runEnded (f : Fault)
  /-- A step the machine refuses; no step does. Safe. -/
  | machine (r : Refusal)
deriving DecidableEq, Repr

/-- A run so far: its phase and the state of CORE. -/
structure Session where
  phase : Phase
  core : State
deriving DecidableEq, Repr

/-- The run after `reset` (R250, R253 (1)). -/
def Session.start : Session := ⟨.fresh, State.reset⟩

/-- The outcome of an operation: the run goes on with a reply, or the operation is refused. -/
inductive OpOutcome where
  | ok (σ : Session) (r : Reply)
  | refused (r : OpRefusal)
deriving DecidableEq, Repr

/-- A step in a run: a faulting step leaves the state as it was (R226) and ends the run (R227). -/
def Session.doStep (σ : Session) : OpOutcome :=
  match cycle σ.core with
  | .next s => .ok ⟨.running, s⟩ .done
  | .nextWithReport s op => .ok ⟨.running, s⟩ (.unknownOpcode op)
  | .fault f => .ok ⟨.ended f, σ.core⟩ (.fault f)
  | .refused r => .refused (.machine r)

/-- `loadProgram` in a run: only before the first step and before another load (R210); a failed load leaves the run as it was. -/
def Session.doLoad (σ : Session) (bytes : List Byte) : OpOutcome :=
  match σ.phase with
  | .fresh =>
    match loadProgram bytes σ.core with
    | some s => .ok ⟨.loaded, s⟩ .done
    | none => .ok σ .imageTooLarge
  | _ => .refused .loadMidRun

/-- `setKey` in a run (R212). -/
def Session.doSetKey (σ : Session) (index : Nat) (pressed : Bool) : OpOutcome :=
  match setKey index pressed σ.core with
  | some s => .ok ⟨σ.phase, s⟩ .done
  | none => .refused (.keyIndex index)

/-- One operation of a run that has not ended. -/
def Session.perform (σ : Session) : Op → OpOutcome
  | .step => σ.doStep
  | .tickTimers => .ok ⟨σ.phase, tickTimers σ.core⟩ .done
  | .loadProgram bytes => σ.doLoad bytes
  | .setKey index pressed => σ.doSetKey index pressed
  | .getFramebuffer => .ok σ (.framebuffer (getFramebuffer σ.core))
  | .takeRedraw => .ok ⟨σ.phase, (takeRedraw σ.core).2⟩ (.redraw (takeRedraw σ.core).1)

/-- One operation of a run; after a fault there is none (R216). -/
def Session.apply (σ : Session) (op : Op) : OpOutcome :=
  match σ.phase with
  | .ended f => .refused (.runEnded f)
  | _ => σ.perform op

/-- A schedule of operations (R50): the run at its end, or the first refusal. -/
def Session.run (σ : Session) : List Op → Except OpRefusal Session
  | [] => .ok σ
  | op :: ops =>
    match σ.apply op with
    | .ok σ' _ => Session.run σ' ops
    | .refused r => .error r

end Sys2Proof.Machine
end

