-- ==== Sys2Proof/Safety.lean ====
section
/-! DEFINITION. What counts as a good state and a safe run, and the tables of the spec that claims are stated with. -/

namespace Sys2Proof.Safety

open Sys2Proof.Machine

/-- The invariant of the machine: memory in its canonical form; `pc` at most 0x10FE and every stack slot at most 0x1000, the reachable ranges of 10_state R27 and R39. -/
structure Inv (s : State) : Prop where
  memory : s.mem.wf
  pcRange : s.pc.toNat ≤ 0x10FE
  stackRange : ∀ k : Fin 16, s.stack[k].toNat ≤ 0x1000

/-- The runs HOST can bring about from reset with the operations of R215. -/
inductive Reachable : Session → Prop where
  | start : Reachable Session.start
  | op {σ σ' : Session} (o : Op) (r : Reply) : Reachable σ → σ.apply o = .ok σ' r → Reachable σ'

/-- A settled state: `MEM[pc..pc+1]` encodes `JP pc` (70_reset_and_hazards R255). -/
def Settled (s : State) : Prop :=
  s.fetchable = true ∧ ∃ nnn : BitVec 12, decodeWord s.fetchWord = .instr (.jpNnn nnn) ∧ addrOperand nnn = s.pc

/-- A run is safe while no step of it has faulted (60_exceptions R227). -/
def SafeRun (σ : Session) : Prop := ∀ f, σ.phase ≠ .ended f

/-- The six writers of VF as a flag (10_state R23). -/
def writesFlag : Instr → Bool
  | .addVxVy _ _ | .subVxVy _ _ | .shrVx _ | .subnVxVy _ _ | .shlVx _ | .drwVxVyN _ _ _ => true
  | _ => false

/-- The explicit destination registers of an instruction: `Vx`, or `V0..Vx` for `LD Vx,[I]` (R160 to R174, R185, R200, R201). -/
def destination : Instr → Reg → Bool
  | .ldVxKk x _, r | .addVxKk x _, r | .ldVxVy x _, r | .orVxVy x _, r | .andVxVy x _, r | .xorVxVy x _, r
  | .addVxVy x _, r | .subVxVy x _, r | .shrVx x, r | .subnVxVy x _, r | .shlVx x, r | .rndVxKk x _, r
  | .ldVxDt x, r | .ldVxK x, r => r == x
  | .ldVxMem x, r => decide (r ≤ x)
  | _, _ => false

/-- How many bytes an instruction stores from `I`: 3 for `LD B`, `x + 1` for `LD [I],Vx`, none otherwise (20_memory R62). -/
def storedBytes : Instr → Nat
  | .ldBVx _ => 3
  | .ldMemVx x => x.val + 1
  | _ => 0

/-- The addresses an instruction stores to in `s`: the `storedBytes` bytes from `I` (R183, R184, R187). -/
def storesTo (i : Instr) (s : State) (a : Nat) : Bool :=
  decide (s.i.toNat ≤ a) && decide (a < s.i.toNat + storedBytes i)

/-- The byte an instruction that stores puts at the stored address `a`: `V[a - I]` for `LD [I],Vx`, and the hundreds, tens and ones of `V[x]` at `I`, `I+1`, `I+2` for `LD B,Vx` (R183, R184). -/
def storedByte (i : Instr) (s : State) (a : Nat) : Byte :=
  match i with
  | .ldMemVx _ => s.reg (Fin.ofNat 16 (a - s.i.toNat))
  | .ldBVx x =>
    if a = s.i.toNat then BitVec.ofNat 8 ((s.reg x).toNat / 100)
    else if a = s.i.toNat + 1 then BitVec.ofNat 8 ((s.reg x).toNat / 10 % 10)
    else BitVec.ofNat 8 ((s.reg x).toNat % 10)
  | _ => s.mem.read a

/-- What address `a` holds after an instruction has run in `s`: the byte stored there, or what it held (R68). -/
def byteAfter (i : Instr) (s : State) (a : Nat) : Byte := if storesTo i s a then storedByte i s a else s.mem.read a

/-- The sprite cell over pixel `(r, c)`: the bit of the sprite drawn at `(y0, x0)` that falls there, 0 where none does (R191 (a), (c)). -/
def spriteBit (sprite : List Byte) (y0 x0 r c : Nat) : Bool :=
  decide (y0 ≤ r) && decide (r < y0 + sprite.length) && decide (x0 ≤ c) && decide (c < x0 + 8) &&
    (sprite.getD (r - y0) 0).getLsbD (7 - (c - x0))

/-- The sprite bit that `DRW Vx,Vy,n` puts on pixel `(r, c)` in `s`, read from memory directly: bit `7 - (c - x0)` of `MEM[I + (r - y0)]` with `x0 = V[x] mod 64`, `y0 = V[y] mod 32`, where the sprite covers the pixel, 0 elsewhere (R191). -/
def drawnBit (s : State) (x y : Reg) (n : BitVec 4) (r c : Nat) : Bool :=
  decide ((s.reg y).toNat % 32 ≤ r) && decide (r < (s.reg y).toNat % 32 + n.toNat) &&
  decide ((s.reg x).toNat % 64 ≤ c) && decide (c < (s.reg x).toNat % 64 + 8) &&
    (s.mem.read (s.i.toNat + (r - (s.reg y).toNat % 32))).getLsbD (7 - (c - (s.reg x).toNat % 64))

/-- The next-`pc` table of 10_state R26, in unbounded numbers, from the state at the start of the step. -/
def nextPc (i : Instr) (s : State) : Nat :=
  match i with
  | .jpNnn nnn | .callNnn nnn => nnn.toNat
  | .jpV0Nnn nnn => nnn.toNat + (s.reg V0).toNat
  | .ret => (s.stack.toList.getD (s.sp.val - 1) 0).toNat
  | .seVxKk x kk => if s.reg x = kk then s.pc.toNat + 4 else s.pc.toNat + 2
  | .sneVxKk x kk => if s.reg x = kk then s.pc.toNat + 2 else s.pc.toNat + 4
  | .seVxVy x y => if s.reg x = s.reg y then s.pc.toNat + 4 else s.pc.toNat + 2
  | .sneVxVy x y => if s.reg x = s.reg y then s.pc.toNat + 2 else s.pc.toNat + 4
  | .skpVx x => if s.keys.toList.getD (s.reg x).toNat false then s.pc.toNat + 4 else s.pc.toNat + 2
  | .sknpVx x => if s.keys.toList.getD (s.reg x).toNat false then s.pc.toNat + 2 else s.pc.toNat + 4
  | .ldVxK _ => if ∃ k : Fin 16, s.keys[k] = true then s.pc.toNat + 2 else s.pc.toNat
  | _ => s.pc.toNat + 2

/-- The fault table of 60_exceptions R239: the one fault condition of an instruction after a successful fetch, and the fault it raises. -/
def faultOf (i : Instr) (s : State) : Option Fault :=
  match i with
  | .ret => if s.sp.val = 0 then some (.stackUnderflow s.pc) else none
  | .callNnn _ => if s.sp.val = 16 then some (.stackOverflow s.pc) else none
  | .skpVx x | .sknpVx x => if 15 < (s.reg x).toNat then some (.keyIndexRange s.pc (s.reg x)) else none
  | .drwVxVyN _ _ n => if 0 < n.toNat ∧ 4095 < s.i.toNat + n.toNat - 1 then some (.outOfBounds .data s.pc s.i) else none
  | .ldBVx _ => if 4095 < s.i.toNat + 2 then some (.outOfBounds .data s.pc s.i) else none
  | .ldMemVx x | .ldVxMem x => if 4095 < s.i.toNat + x.val then some (.outOfBounds .data s.pc s.i) else none
  | _ => none

/-! ### The shapes of an effect -/

/-- `t` is `s` but for `V[x]`, which holds `b`, and `pc`, which is past the instruction. -/
structure RegisterEffect (s t : State) (x : Reg) (b : Byte) : Prop where
  result : t.reg x = b
  otherRegisters : ∀ r, r ≠ x → t.reg r = s.reg r
  pc : t.pc = s.pc + 2
  rest : t = { s with v := t.v, pc := t.pc }

/-- `t` is `s` but for `V[x]`, which holds the number `result` unless `x = 15`, for VF, which holds the number `flag`, and for `pc` (R24, R162). -/
structure ResultAndFlagEffect (s t : State) (x : Reg) (result flag : Nat) : Prop where
  result : x ≠ VF → (t.reg x).toNat = result
  flag : (t.reg VF).toNat = flag
  otherRegisters : ∀ r, r ≠ x → r ≠ VF → t.reg r = s.reg r
  pc : t.pc = s.pc + 2
  rest : t = { s with v := t.v, pc := t.pc }

/-! ### Groups of instructions of one shape, for the frame statements -/

/-- The instructions whose destination is general registers. -/
def writesRegisters : Instr → Bool
  | .ldVxKk _ _ | .addVxKk _ _ | .ldVxVy _ _ | .orVxVy _ _ | .andVxVy _ _ | .xorVxVy _ _
  | .addVxVy _ _ | .subVxVy _ _ | .shrVx _ | .subnVxVy _ _ | .shlVx _ | .rndVxKk _ _
  | .ldVxDt _ | .ldVxK _ | .ldVxMem _ => true
  | _ => false

/-- Jumps, call, return and skips. -/
def transfersControl : Instr → Bool
  | .ret | .jpNnn _ | .callNnn _ | .jpV0Nnn _ | .seVxKk _ _ | .sneVxKk _ _ | .seVxVy _ _ | .sneVxVy _ _
  | .skpVx _ | .sknpVx _ => true
  | _ => false

/-- The readers of `KEY`: `SKP`, `SKNP`, `LD Vx,K` (10_state R32). -/
def readsKeys : Instr → Bool
  | .skpVx _ | .sknpVx _ | .ldVxK _ => true
  | _ => false

/-- The one reader of `DT` among the instructions: `LD Vx,DT` (R31). -/
def readsDelay : Instr → Bool
  | .ldVxDt _ => true
  | _ => false

/-- Whether an instruction names register `r`, as an operand or in a register range, or implicitly as V0 (R22, R143, R184, R185). -/
def namesRegister : Instr → Reg → Bool
  | .seVxKk x _, r | .sneVxKk x _, r | .ldVxKk x _, r | .addVxKk x _, r | .rndVxKk x _, r
  | .shrVx x, r | .shlVx x, r | .skpVx x, r | .sknpVx x, r | .ldVxDt x, r | .ldVxK x, r | .ldDtVx x, r
  | .ldStVx x, r | .addIVx x, r | .ldFVx x, r | .ldBVx x, r => r == x
  | .seVxVy x y, r | .sneVxVy x y, r | .ldVxVy x y, r | .orVxVy x y, r | .andVxVy x y, r | .xorVxVy x y, r
  | .addVxVy x y, r | .subVxVy x y, r | .subnVxVy x y, r | .drwVxVyN x y _, r => r == x || r == y
  | .ldMemVx x, r | .ldVxMem x, r => decide (r ≤ x)
  | .jpV0Nnn _, r => r == V0
  | .cls, _ | .ret, _ | .jpNnn _, _ | .callNnn _, _ | .ldINnn _, _ => false

end Sys2Proof.Safety
end

