-- ==== Sys2Proof/Certificates/Slice0/Obligations.lean ====
section
/-! DEFINITION. The statements for the provers, from the numbered rules of spec/. -/

open Sys2Proof Sys2Proof.Machine Sys2Proof.Safety

/-! ### Encoding (30_encoding) -/

/-- Decoding an instruction's bytes gives it back with the bytes after it, for every instruction and every operand.
The opcode numbers are the spec's from general knowledge (decision D24, log entry 5). -/
def Obligations.DecodeOfEncodeIsIdentity : Prop :=
  ∀ (i : Instr) (rest : List Byte), decode (encodeBytes i ++ rest) = .instr i rest

/-- The other direction: a word that decodes to an instruction is that instruction's canonical word but for the ignored bits (R106; decisions D10, D24, log entries 5, 14). -/
def Obligations.EncodeOfDecodeIsTheWordButForIgnoredBits : Prop :=
  ∀ (op : Word16) (i : Instr), decodeWord op = .instr i → encode i = op &&& ~~~ i.ignoredBits

/-- A word decodes to an instruction only if it lies in the instruction's row of the opcode map, and it is `UNKNOWN` only if it lies in no row (R94 to R105; decisions D10, D24, log entries 5, 14). -/
def Obligations.DecodeFollowsTheOpcodeMap : Prop :=
  (∀ (op : Word16) (i : Instr), decodeWord op = .instr i → i.matches op) ∧
  (∀ (op w : Word16), decodeWord op = .unknown w → w = op ∧ ∀ i : Instr, ¬ i.matches op)

/-- No word lies in two rows of the opcode map (R104). -/
def Obligations.OpcodeMapRowsDoNotOverlap : Prop :=
  ∀ (i j : Instr) (op : Word16), i.matches op → j.matches op → i.pattern = j.pattern

/-- Words of the spec's own examples decode to the instructions, or the unknown opcode, they stand for: `6A02`, `1200` (E9), `8014` (P2), `F265`, `00EE` (P3), `D012` (P4), `E29E` (P5), `512F` (T-S12) and `B300` (T-C11) of 95_test_vectors, `801F` of 40_step_and_dispatch R124.
The opcode numbers but those of `6A02` and `1200` are the spec's from general knowledge (decision D24, log entry 5); that `512F` is `SE V1,V2` and `801F` unknown is the decoder's strictness (decision D10, log entry 14). -/
def Obligations.SpecExampleWordsDecode : Prop :=
  decodeWord 0x6A02 = .instr (.ldVxKk 0xA 0x02) ∧ decodeWord 0x1200 = .instr (.jpNnn 0x200) ∧
  decodeWord 0x8014 = .instr (.addVxVy 0 1) ∧ decodeWord 0xD012 = .instr (.drwVxVyN 0 1 2) ∧
  decodeWord 0xE29E = .instr (.skpVx 2) ∧ decodeWord 0xF265 = .instr (.ldVxMem 2) ∧
  decodeWord 0x512F = .instr (.seVxVy 1 2) ∧ decodeWord 0x00EE = .instr .ret ∧
  decodeWord 0xB300 = .instr (.jpV0Nnn 0x300) ∧ decodeWord 0x801F = .unknown 0x801F

/-! ### The step (40_step_and_dispatch) -/

/-- When both bytes at `pc` exist and decode to an instruction, the step is that instruction's execution in the same state: nothing is added before or after it (R120, R122, R125). -/
def Obligations.StepRunsTheDecodedInstruction : Prop :=
  ∀ (s : State) (i : Instr), s.pc.toNat + 1 < 4096 →
    decode [s.mem.read s.pc.toNat, s.mem.read (s.pc.toNat + 1)] = .instr i [] →
    step s = exec i s ∧ cycle s = .ofResult (exec i s)

/-- R67: the fetch faults exactly when the second byte of the instruction would not exist, and no other condition gives the fetch kind. -/
def Obligations.FetchFaultsExactlyBeyondMemory : Prop :=
  ∀ s : State,
    (step s = .fault (.outOfBounds .fetch s.pc s.pc) ↔ 4096 ≤ s.pc.toNat + 1) ∧
    (∀ p a, step s = .fault (.outOfBounds .fetch p a) → 4096 ≤ s.pc.toNat + 1)

/-- An unknown opcode is a reported no-op: `pc` advances by 2, nothing else changes, and the outcome carries the opcode (R124, R225; decision D17, log entry 2). -/
def Obligations.UnknownOpcodeIsAReportedNoOp : Prop :=
  ∀ (s : State) (op : Word16), s.pc.toNat + 1 < 4096 → decodeWord s.fetchWord = .unknown op →
    op = s.fetchWord ∧ op.toNat = (s.mem.read s.pc.toNat).toNat * 256 + (s.mem.read (s.pc.toNat + 1)).toNat ∧
    cycle s = .nextWithReport { s with pc := s.pc + 2 } op ∧ step s = .next { s with pc := s.pc + 2 }

/-- R26: the next `pc` of every successful step, as an unbounded number; an unknown opcode gives `pc0 + 2`. -/
def Obligations.NextPcIsTheTablesEntry : Prop :=
  (∀ (i : Instr) (s t : State), s.pc.toNat + 1 < 4096 → exec i s = .next t → t.pc.toNat = nextPc i s) ∧
  (∀ (s t : State) (op : Word16), decodeWord s.fetchWord = .unknown op → step s = .next t →
    t.pc.toNat = s.pc.toNat + 2)

/-- The fault table: each instruction raises its one fault exactly under its condition, and answers a next state otherwise (R239, R220; decisions D6, D7, log entries 7, 8). -/
def Obligations.EveryInstructionRunsUnlessItsFaultConditionHolds : Prop :=
  ∀ (i : Instr) (s : State),
    (∀ f, faultOf i s = some f → exec i s = .fault f) ∧ (faultOf i s = none → ∃ t, exec i s = .next t)

/-- No step is refused: a step ends in a next state or in a fault (R120: "There is no fourth outcome"). -/
def Obligations.NoStepIsRefused : Prop :=
  ∀ (s : State) (r : Refusal), step s ≠ .refused r

/-- What `step` does not do (R127): it changes `DT` and `ST` only by the instructions that write them, never `KEY`, never clears `REDRAW` (decision D14, log entry 10); a settled state, which jumps to itself, steps to itself. -/
def Obligations.StepDoesNotTickSampleOrHalt : Prop :=
  (∀ s t : State, step s = .next t →
    (t.dt = s.dt ∨ ∃ x, decodeWord s.fetchWord = .instr (.ldDtVx x) ∧ t.dt = s.reg x) ∧
    (t.st = s.st ∨ ∃ x, decodeWord s.fetchWord = .instr (.ldStVx x) ∧ t.st = s.reg x) ∧
    t.keys = s.keys ∧ (s.redraw = true → t.redraw = true)) ∧
  (∀ s : State, Settled s → step s = .next s)

/-! ### Control transfer (41_control_flow) -/

/-- R141: `JP nnn`. -/
def Obligations.JumpSetsPc : Prop :=
  ∀ (nnn : BitVec 12) (s : State), ∃ t, exec (.jpNnn nnn) s = .next t ∧
    t.pc.toNat = nnn.toNat ∧ t = { s with pc := t.pc }

/-- `JP V0,nnn` (R143): the unbounded sum, neither wrapped nor reduced mod 4096; it does not fault itself (decision D5, log entry 7). -/
def Obligations.JumpWithOffsetSetsPcToTheUnreducedSum : Prop :=
  ∀ (nnn : BitVec 12) (s : State), ∃ t, exec (.jpV0Nnn nnn) s = .next t ∧
    t.pc.toNat = nnn.toNat + (s.reg 0).toNat ∧ t = { s with pc := t.pc }

/-- `CALL nnn` (R142) pushes the address after it, or raises `StackOverflow` at depth 16; which slot a push uses is decision D18 (log entry 18). -/
def Obligations.CallPushesTheReturnAddress : Prop :=
  ∀ (nnn : BitVec 12) (s : State), s.pc.toNat + 1 < 4096 →
    (∀ h : s.sp.val < 16, ∃ t, exec (.callNnn nnn) s = .next t ∧
      t.sp.val = s.sp.val + 1 ∧ (t.stack[s.sp.val]'h).toNat = s.pc.toNat + 2 ∧
      (∀ k : Fin 16, k.val ≠ s.sp.val → t.stack[k] = s.stack[k]) ∧ t.pc.toNat = nnn.toNat ∧
      t = { s with pc := t.pc, stack := t.stack, sp := t.sp }) ∧
    (s.sp.val = 16 → exec (.callNnn nnn) s = .fault (.stackOverflow s.pc))

/-- `RET` (R140) pops the newest return address into `pc`, or raises `StackUnderflow` on an empty stack; the slot is decision D18's (log entry 18). -/
def Obligations.ReturnPopsIntoPc : Prop :=
  ∀ s : State,
    (∀ h : 0 < s.sp.val, ∃ t, exec .ret s = .next t ∧
      t.sp.val + 1 = s.sp.val ∧ t.pc = s.stack[s.sp.val - 1]'(by omega) ∧ t = { s with pc := t.pc, sp := t.sp }) ∧
    (s.sp.val = 0 → exec .ret s = .fault (.stackUnderflow s.pc))

/-- The call and return law (R145): a `CALL` whose target is a `RET` comes back in two steps to the instruction after it, and changes nothing but `pc` and the slot it used (decision D18, log entry 18). -/
def Obligations.CallThenReturnComesBack : Prop :=
  ∀ (s : State) (nnn : BitVec 12) (h : s.sp.val < 16), s.pc.toNat ≤ 0xFFC → nnn.toNat ≤ 0xFFE →
    decodeWord s.fetchWord = .instr (.callNnn nnn) →
    s.mem.read nnn.toNat = 0x00 → s.mem.read (nnn.toNat + 1) = 0xEE →
    Sys2Proof.core.run 2 s =
      .next { s with pc := s.pc + 2, stack := s.stack.set s.sp.val (s.pc + 2) h }

/-! ### Skips (42_skips) -/

/-- R151, R152: `SE Vx,kk` and `SNE Vx,kk`. -/
def Obligations.ConstantSkipsCompareARegister : Prop :=
  ∀ (x : Reg) (kk : Byte) (s : State),
    exec (.seVxKk x kk) s = .next { s with pc := if (s.reg x).toNat = kk.toNat then s.pc + 4 else s.pc + 2 } ∧
    exec (.sneVxKk x kk) s = .next { s with pc := if (s.reg x).toNat = kk.toNat then s.pc + 2 else s.pc + 4 }

/-- `SE Vx,Vy` and `SNE Vx,Vy` (R153, R154), whatever the low nibble of the opcode (decisions D10, D24, log entries 5, 14). -/
def Obligations.RegisterSkipsCompareTwoRegisters : Prop :=
  (∀ op : Word16, op.extractLsb' 12 4 = 0x5 → decodeWord op = .instr (.seVxVy (opX op) (opY op))) ∧
  (∀ op : Word16, op.extractLsb' 12 4 = 0x9 → decodeWord op = .instr (.sneVxVy (opX op) (opY op))) ∧
  ∀ (x y : Reg) (s : State),
    exec (.seVxVy x y) s = .next { s with pc := if (s.reg x).toNat = (s.reg y).toNat then s.pc + 4 else s.pc + 2 } ∧
    exec (.sneVxVy x y) s = .next { s with pc := if (s.reg x).toNat = (s.reg y).toNat then s.pc + 2 else s.pc + 4 }

/-- `SKP Vx` and `SKNP Vx` on a key 0 to 15 (R155, R156); a larger value raises `KeyIndexRange` (R224; decision D7, log entry 8). -/
def Obligations.KeySkipsTestTheSelectedKey : Prop :=
  ∀ (x : Reg) (s : State),
    (∀ k : Fin 16, (s.reg x).toNat = k.val →
      exec (.skpVx x) s = .next { s with pc := if s.keys[k] = true then s.pc + 4 else s.pc + 2 } ∧
      exec (.sknpVx x) s = .next { s with pc := if s.keys[k] = true then s.pc + 2 else s.pc + 4 }) ∧
    (15 < (s.reg x).toNat →
      exec (.skpVx x) s = .fault (.keyIndexRange s.pc (s.reg x)) ∧
      exec (.sknpVx x) s = .fault (.keyIndexRange s.pc (s.reg x)))

/-! ### Loads, the ALU group and RND (43_load_alu) -/

/-- R160: `LD Vx,kk`. -/
def Obligations.LoadConstantSetsTheRegister : Prop :=
  ∀ (x : Reg) (kk : Byte) (s : State), ∃ t, exec (.ldVxKk x kk) s = .next t ∧ RegisterEffect s t x kk

/-- R161: `ADD Vx,kk` wraps and writes no flag. -/
def Obligations.AddConstantWrapsWithoutFlag : Prop :=
  ∀ (x : Reg) (kk : Byte) (s : State), ∃ t b, exec (.addVxKk x kk) s = .next t ∧ RegisterEffect s t x b ∧
    b.toNat = ((s.reg x).toNat + kk.toNat) % 256

/-- `LD Vx,Vy`, `OR`, `AND`, `XOR` (R163 to R166), bit by bit; VF is written only as the destination (decision D30, log entry 22). -/
def Obligations.CopyAndBitwiseWriteOnlyTheirDestination : Prop :=
  ∀ (x y : Reg) (s : State),
    (∃ t, exec (.ldVxVy x y) s = .next t ∧ RegisterEffect s t x (s.reg y)) ∧
    (∃ t b, exec (.orVxVy x y) s = .next t ∧ RegisterEffect s t x b ∧
      ∀ k : Fin 8, b.getLsbD k = ((s.reg x).getLsbD k || (s.reg y).getLsbD k)) ∧
    (∃ t b, exec (.andVxVy x y) s = .next t ∧ RegisterEffect s t x b ∧
      ∀ k : Fin 8, b.getLsbD k = ((s.reg x).getLsbD k && (s.reg y).getLsbD k)) ∧
    (∃ t b, exec (.xorVxVy x y) s = .next t ∧ RegisterEffect s t x b ∧
      ∀ k : Fin 8, b.getLsbD k = ((s.reg x).getLsbD k ^^ (s.reg y).getLsbD k))

/-- `ADD Vx,Vy` (R167): the sum mod 256 and the carry; with `x = 15` the flag remains (decision D8, log entry 6). -/
def Obligations.AddSetsSumAndCarry : Prop :=
  ∀ (x y : Reg) (s : State), ∃ t, exec (.addVxVy x y) s = .next t ∧
    ResultAndFlagEffect s t x (((s.reg x).toNat + (s.reg y).toNat) % 256)
      (if 255 < (s.reg x).toNat + (s.reg y).toNat then 1 else 0)

/-- `SUB` and `SUBN` (R168, R170): the difference mod 256, and VF is 1 iff strictly greater; with `x = 15` the flag remains (decision D8, log entry 6). -/
def Obligations.SubtractionsSetDifferenceAndStrictFlag : Prop :=
  ∀ (x y : Reg) (s : State),
    (∃ t, exec (.subVxVy x y) s = .next t ∧
      ResultAndFlagEffect s t x (((s.reg x).toNat + 256 - (s.reg y).toNat) % 256)
        (if (s.reg y).toNat < (s.reg x).toNat then 1 else 0)) ∧
    (∃ t, exec (.subnVxVy x y) s = .next t ∧
      ResultAndFlagEffect s t x (((s.reg y).toNat + 256 - (s.reg x).toNat) % 256)
        (if (s.reg x).toNat < (s.reg y).toNat then 1 else 0))

/-- `SHR Vx` and `SHL Vx` (R169, R171): one position, and VF is the bit shifted out; with `x = 15` the flag remains (decision D8, log entry 6). -/
def Obligations.ShiftsSetResultAndBitShiftedOut : Prop :=
  ∀ (x : Reg) (s : State),
    (∃ t, exec (.shrVx x) s = .next t ∧
      ResultAndFlagEffect s t x ((s.reg x).toNat / 2) ((s.reg x).toNat % 2)) ∧
    (∃ t, exec (.shlVx x) s = .next t ∧
      ResultAndFlagEffect s t x (2 * (s.reg x).toNat % 256) ((s.reg x).toNat / 128))

/-- `RND Vx,kk` (R174; decision D15, log entry 1): the drawn byte masked by `kk`, whatever byte is drawn; no bit outside `kk` is set; one byte is consumed. -/
def Obligations.RandomIsTheDrawnByteMasked : Prop :=
  ∀ (x : Reg) (kk : Byte) (s : State), ∃ t, exec (.rndVxKk x kk) s = .next t ∧
    t.reg x = Config.draw s.draws &&& kk ∧ t.reg x &&& ~~~ kk = 0 ∧
    (∀ r, r ≠ x → t.reg r = s.reg r) ∧ t.draws = s.draws + 1 ∧ t.pc = s.pc + 2 ∧
    t = { s with v := t.v, pc := t.pc, draws := t.draws }

/-! ### Index register and memory (44_index_and_memory) -/

/-- R180: `LD I,nnn`. -/
def Obligations.LoadIndexZeroExtends : Prop :=
  ∀ (nnn : BitVec 12) (s : State), ∃ t, exec (.ldINnn nnn) s = .next t ∧
    t.i.toNat = nnn.toNat ∧ t.pc = s.pc + 2 ∧ t = { s with i := t.i, pc := t.pc }

/-- `ADD I,Vx` and `LD F,Vx` (R181, R182; decision D9, log entry 9): the index modulo 65536 with no flag, and the glyph address with no mask on `V[x]`. -/
def Obligations.IndexArithmeticIsUnmaskedAndFlagless : Prop :=
  ∀ (x : Reg) (s : State),
    (∃ t, exec (.addIVx x) s = .next t ∧ t.i.toNat = (s.i.toNat + (s.reg x).toNat) % 65536 ∧
      t.pc = s.pc + 2 ∧ t = { s with i := t.i, pc := t.pc }) ∧
    (∃ t, exec (.ldFVx x) s = .next t ∧ t.i.toNat = 0x050 + 5 * (s.reg x).toNat ∧
      t.pc = s.pc + 2 ∧ t = { s with i := t.i, pc := t.pc })

/-- `LD B,Vx` (R183): three decimal digits whose number is `V[x]`; out of range nothing is written (decision D6, log entry 7). -/
def Obligations.DecimalDigitsAreStored : Prop :=
  ∀ (x : Reg) (s : State), s.mem.wf →
    (s.i.toNat + 2 ≤ 4095 → ∃ t, exec (.ldBVx x) s = .next t ∧
      100 * (t.mem.read s.i.toNat).toNat + 10 * (t.mem.read (s.i.toNat + 1)).toNat + (t.mem.read (s.i.toNat + 2)).toNat
        = (s.reg x).toNat ∧
      (t.mem.read s.i.toNat).toNat ≤ 2 ∧ (t.mem.read (s.i.toNat + 1)).toNat ≤ 9 ∧
      (t.mem.read (s.i.toNat + 2)).toNat ≤ 9 ∧ t.pc = s.pc + 2 ∧ t = { s with mem := t.mem, pc := t.pc }) ∧
    (4095 < s.i.toNat + 2 → exec (.ldBVx x) s = .fault (.outOfBounds .data s.pc s.i))

/-- `LD [I],Vx` (R184): `V0..Vx` at `I..I+x`, `I` unchanged; out of range nothing is written (decision D6, log entry 7). -/
def Obligations.BlockStoreWritesTheRegisterRange : Prop :=
  ∀ (x : Reg) (s : State), s.mem.wf →
    (s.i.toNat + x.val ≤ 4095 → ∃ t, exec (.ldMemVx x) s = .next t ∧
      (∀ r : Reg, r ≤ x → t.mem.read (s.i.toNat + r.val) = s.reg r) ∧ t.pc = s.pc + 2 ∧
      t = { s with mem := t.mem, pc := t.pc }) ∧
    (4095 < s.i.toNat + x.val → exec (.ldMemVx x) s = .fault (.outOfBounds .data s.pc s.i))

/-- `LD Vx,[I]` (R185): `V0..Vx` from `I..I+x`, the registers above and `I` unchanged; out of range no register is written (decision D6, log entry 7). -/
def Obligations.BlockLoadReadsTheRegisterRange : Prop :=
  ∀ (x : Reg) (s : State),
    (s.i.toNat + x.val ≤ 4095 → ∃ t, exec (.ldVxMem x) s = .next t ∧
      (∀ r : Reg, r ≤ x → t.reg r = s.mem.read (s.i.toNat + r.val)) ∧ (∀ r : Reg, x < r → t.reg r = s.reg r) ∧
      t.pc = s.pc + 2 ∧ t = { s with v := t.v, pc := t.pc }) ∧
    (4095 < s.i.toNat + x.val → exec (.ldVxMem x) s = .fault (.outOfBounds .data s.pc s.i))

/-- The round-trip law (R186): after `LD [I],Vx` and anything that changes neither `I` nor the stored bytes, `LD Vx,[I]` restores `V0..Vx`. -/
def Obligations.BlockStoreThenLoadRestoresRegisters : Prop :=
  ∀ (x : Reg) (s t u : State), s.mem.wf → exec (.ldMemVx x) s = .next t → u.i = t.i →
    (∀ r : Reg, r ≤ x → u.mem.read (s.i.toNat + r.val) = t.mem.read (s.i.toNat + r.val)) →
    ∃ w, exec (.ldVxMem x) u = .next w ∧ ∀ r : Reg, r ≤ x → w.reg r = s.reg r

/-- Self-modifying code (R72): after any instruction the next word fetched is made of what the instruction left at its two addresses, the byte of the lower address high: a byte that `LD B,Vx` or `LD [I],Vx` stored there, wherever its range meets the word, and the old byte otherwise.
That a store may change program text like any memory is decision D23 (log entry 17). -/
def Obligations.StoreIsSeenByTheNextFetch : Prop :=
  ∀ (i : Instr) (s t : State), s.mem.wf → exec i s = .next t →
    t.fetchWord.toNat = (byteAfter i s t.pc.toNat).toNat * 256 + (byteAfter i s (t.pc.toNat + 1)).toNat

/-! ### Display (45_display) -/

/-- `CLS` (R190; decision D14, log entry 10): every pixel clear; VF and `REDRAW` are not written. -/
def Obligations.ClearScreenClearsEveryPixel : Prop :=
  ∀ s : State, ∃ t, exec .cls s = .next t ∧ (∀ r c, t.fb.pixel r c = false) ∧ t.pc = s.pc + 2 ∧
    t = { s with fb := t.fb, pc := t.pc }

/-- `DRW Vx,Vy,n` (R191; decisions D6, D11, D12, D13, D28, log entries 7, 11, 12): each pixel of the grid is XORed with the sprite bit over it, what falls outside is clipped, VF is 1 iff a set pixel is cleared, `REDRAW` is set; a sprite that passes 4095 faults. -/
def Obligations.DrawXorsTheClippedSprite : Prop :=
  ∀ (x y : Reg) (n : BitVec 4) (s : State),
    (n.toNat = 0 ∨ s.i.toNat + n.toNat - 1 ≤ 4095 → ∃ t, exec (.drwVxVyN x y n) s = .next t ∧
      (∀ r c, r < 32 → c < 64 → t.fb.pixel r c = (s.fb.pixel r c ^^ drawnBit s x y n r c)) ∧
      (t.reg VF = 1 ∨ t.reg VF = 0) ∧
      (t.reg VF = 1 ↔ ∃ r c, r < 32 ∧ c < 64 ∧ s.fb.pixel r c = true ∧ t.fb.pixel r c = false) ∧
      (∀ r, r ≠ VF → t.reg r = s.reg r) ∧ t.redraw = true ∧ t.pc = s.pc + 2 ∧
      t = { s with fb := t.fb, v := t.v, redraw := t.redraw, pc := t.pc }) ∧
    (0 < n.toNat → 4095 < s.i.toNat + n.toNat - 1 →
      exec (.drwVxVyN x y n) s = .fault (.outOfBounds .data s.pc s.i))

/-- Draw law 1 (R192): the same sprite drawn again at the same position restores the framebuffer.
The second draw collides iff the sprite has a 1 bit over a pixel that was clear before the first draw; R192 leaves that condition out, and then contradicts R191 (log entry 13). -/
def Obligations.DrawingTwiceRestoresTheScreen : Prop :=
  ∀ (x y : Reg) (n : BitVec 4) (s t u : State), exec (.drwVxVyN x y n) s = .next t →
    u.fb = t.fb → u.i = s.i → u.reg x = s.reg x → u.reg y = s.reg y →
    (∀ k, k < n.toNat → u.mem.read (s.i.toNat + k) = s.mem.read (s.i.toNat + k)) →
    ∃ w, exec (.drwVxVyN x y n) u = .next w ∧ w.fb = s.fb ∧
      (w.reg VF = 1 ↔ ∃ r c, r < 32 ∧ c < 64 ∧ drawnBit s x y n r c = true ∧ s.fb.pixel r c = false)

/-- Draw laws 2 and 4 (R192): no pixel outside the sprite's rectangle changes, and a draw on a clear framebuffer does not collide. -/
def Obligations.DrawStaysInItsRectangle : Prop :=
  ∀ (x y : Reg) (n : BitVec 4) (s t : State), exec (.drwVxVyN x y n) s = .next t →
    (∀ r c, (r < (s.reg y).toNat % 32 ∨ (s.reg y).toNat % 32 + n.toNat ≤ r ∨
        c < (s.reg x).toNat % 64 ∨ (s.reg x).toNat % 64 + 8 ≤ c) → t.fb.pixel r c = s.fb.pixel r c) ∧
    ((∀ r c, s.fb.pixel r c = false) → t.reg VF = 0)

/-! ### Timers and keys (46_timers_and_keys, 47_host_operations) -/

/-- R200, R202, R203: `LD Vx,DT`, `LD DT,Vx`, `LD ST,Vx`. -/
def Obligations.TimerLoadsMoveTheCount : Prop :=
  ∀ (x : Reg) (s : State),
    (∃ t, exec (.ldVxDt x) s = .next t ∧ RegisterEffect s t x s.dt) ∧
    (∃ t, exec (.ldDtVx x) s = .next t ∧ t.dt = s.reg x ∧ t.pc = s.pc + 2 ∧ t = { s with dt := t.dt, pc := t.pc }) ∧
    (∃ t, exec (.ldStVx x) s = .next t ∧ t.st = s.reg x ∧ t.pc = s.pc + 2 ∧ t = { s with st := t.st, pc := t.pc })

/-- `LD Vx,K` (R201; decision D25, log entry 21): the least pressed key, or, with no key pressed, no change at all. -/
def Obligations.KeyWaitTakesTheLeastKeyOrWaits : Prop :=
  ∀ (x : Reg) (s : State),
    (∀ k : Fin 16, s.keys[k] = true → (∀ j : Fin 16, j < k → s.keys[j] = false) →
      ∃ t b, exec (.ldVxK x) s = .next t ∧ RegisterEffect s t x b ∧ b.toNat = k.val) ∧
    ((∀ k : Fin 16, s.keys[k] = false) → exec (.ldVxK x) s = .next s)

/-- `tickTimers` (R211) counts both timers down by at most 1, floored at 0, and touches nothing else; after `n` ticks each holds its count less `n`, floored at 0. -/
def Obligations.TicksCountDownToZero : Prop :=
  (∀ s : State, (tickTimers s).dt.toNat = s.dt.toNat - 1 ∧ (tickTimers s).st.toNat = s.st.toNat - 1 ∧
    tickTimers s = { s with dt := (tickTimers s).dt, st := (tickTimers s).st }) ∧
  (∀ (n : Nat) (s : State), (tickTimers^[n] s).dt.toNat = s.dt.toNat - n ∧ (tickTimers^[n] s).st.toNat = s.st.toNat - n)

/-- `loadProgram` (R210; decision D22, log entry 16): an image of at most 3584 bytes lies verbatim from 0x200 and nothing else changes; a longer one is not copied. -/
def Obligations.LoadPlacesTheImageVerbatim : Prop :=
  ∀ (bytes : List Byte) (s : State), s.mem.wf →
    (bytes.length ≤ 3584 → ∃ t, loadProgram bytes s = some t ∧
      (∀ k, k < bytes.length → t.mem.read (0x200 + k) = bytes.getD k 0) ∧
      (∀ a, a < 0x200 ∨ 0x200 + bytes.length ≤ a → t.mem.read a = s.mem.read a) ∧ t = { s with mem := t.mem }) ∧
    (3584 < bytes.length → loadProgram bytes s = none)

/-- `setKey` and `takeRedraw` (R212, R214; decisions D14, D29, log entries 8, 10): the one flag, no transition above 15; the signal read and cleared. -/
def Obligations.HostSettersTouchOneFlag : Prop :=
  (∀ (k : Nat) (b : Bool) (s : State), (∀ h : k < 16, ∃ t, setKey k b s = some t ∧ t.keys[k] = b ∧
      (∀ j : Fin 16, j.val ≠ k → t.keys[j] = s.keys[j]) ∧ t = { s with keys := t.keys }) ∧
    (15 < k → setKey k b s = none)) ∧
  (∀ s : State, takeRedraw s = (s.redraw, { s with redraw := false }))

/-! ### Frames -/

/-- The frame of the instructions whose destination is registers: every register but the destination and, for the flag writers, VF is unchanged; so are every byte of memory, the stack, `I`, the timers, the keys and the screen.
That `OR`, `AND` and `XOR` leave VF is decision D30 (log entry 22); `draws`, which `RND` advances, is the model's own (log entry 1). -/
def Obligations.FrameOfRegisterInstructions : Prop :=
  ∀ (i : Instr) (s t : State), writesRegisters i = true → exec i s = .next t →
    (∀ r, destination i r = false → (writesFlag i = true → r ≠ VF) → t.reg r = s.reg r) ∧
    (∀ a, t.mem.read a = s.mem.read a) ∧ t = { s with v := t.v, pc := t.pc, draws := t.draws }

/-- The frame of jumps, call, return and skips: registers, memory, `I`, timers, keys and screen are unchanged; only `CALL` writes a stack slot, the one at `SP`, and only `CALL` and `RET` move `SP`.
That the slot is the one at `SP` is decision D18 (log entry 18). -/
def Obligations.FrameOfControlTransfers : Prop :=
  ∀ (i : Instr) (s t : State), transfersControl i = true → exec i s = .next t →
    (∀ r, t.reg r = s.reg r) ∧ (∀ a, t.mem.read a = s.mem.read a) ∧
    t = { s with pc := t.pc, stack := t.stack, sp := t.sp } ∧
    (∀ k : Fin 16, (k.val ≠ s.sp.val ∨ ∀ nnn, i ≠ .callNnn nnn) → t.stack[k] = s.stack[k]) ∧
    ((∀ nnn, i ≠ .callNnn nnn) → i ≠ .ret → t.sp = s.sp)

/-- The frame of `LD I`, `ADD I`, `LD F`, `LD DT`, `LD ST`: no register, no byte of memory, and of `I`, `DT`, `ST` only the one named.
That `ADD I,Vx` leaves VF is decisions D9 and D30 (log entries 9, 22). -/
def Obligations.FrameOfIndexAndTimerWrites : Prop :=
  ∀ (x : Reg) (nnn : BitVec 12) (s t : State),
    (exec (.ldINnn nnn) s = .next t ∨ exec (.addIVx x) s = .next t ∨ exec (.ldFVx x) s = .next t →
      (∀ r, t.reg r = s.reg r) ∧ (∀ a, t.mem.read a = s.mem.read a) ∧ t = { s with i := t.i, pc := t.pc }) ∧
    (exec (.ldDtVx x) s = .next t →
      (∀ r, t.reg r = s.reg r) ∧ (∀ a, t.mem.read a = s.mem.read a) ∧ t = { s with dt := t.dt, pc := t.pc }) ∧
    (exec (.ldStVx x) s = .next t →
      (∀ r, t.reg r = s.reg r) ∧ (∀ a, t.mem.read a = s.mem.read a) ∧ t = { s with st := t.st, pc := t.pc })

/-- The frame of the stores `LD B,Vx` and `LD [I],Vx`: every byte outside the stored ones, which start at `I`, reads as before; no register, no flag and not `I` changes (R183, R184). -/
def Obligations.FrameOfStores : Prop :=
  ∀ (x : Reg) (s t : State),
    (exec (.ldBVx x) s = .next t →
      (∀ a, storesTo (.ldBVx x) s a = false → t.mem.read a = s.mem.read a) ∧ (∀ r, t.reg r = s.reg r) ∧
      t = { s with mem := t.mem, pc := t.pc }) ∧
    (exec (.ldMemVx x) s = .next t →
      (∀ a, storesTo (.ldMemVx x) s a = false → t.mem.read a = s.mem.read a) ∧ (∀ r, t.reg r = s.reg r) ∧
      t = { s with mem := t.mem, pc := t.pc })

/-- The frame of `CLS` and `DRW`: no byte of memory; of the registers only VF, and that only by `DRW`; `REDRAW` only by `DRW` (R190, R191; decision D14, log entry 10). -/
def Obligations.FrameOfDisplayInstructions : Prop :=
  ∀ (x y : Reg) (n : BitVec 4) (s t : State),
    (exec .cls s = .next t →
      (∀ r, t.reg r = s.reg r) ∧ (∀ a, t.mem.read a = s.mem.read a) ∧ t = { s with fb := t.fb, pc := t.pc }) ∧
    (exec (.drwVxVyN x y n) s = .next t →
      (∀ r, r ≠ VF → t.reg r = s.reg r) ∧ (∀ a, t.mem.read a = s.mem.read a) ∧
      t = { s with fb := t.fb, v := t.v, redraw := t.redraw, pc := t.pc })

/-! ### Rules of the whole machine -/

/-- Who writes VF (R23): a flag writer leaves 0 or 1 in it on every execution; any other instruction leaves it alone unless VF is its explicit destination (decision D30, log entry 22). -/
def Obligations.FlagIsWrittenOnlyByTheFlagWriters : Prop :=
  ∀ (i : Instr) (s t : State), exec i s = .next t →
    (writesFlag i = true → t.reg VF = 0 ∨ t.reg VF = 1) ∧
    (writesFlag i = false → destination i VF = false → t.reg VF = s.reg VF)

/-- No instruction reads VF implicitly (R23): one that does not name VF does the same whatever VF holds. -/
def Obligations.FlagIsReadOnlyByName : Prop :=
  ∀ (i : Instr) (s : State) (b : Byte), namesRegister i VF = false →
    (∀ t, exec i s = .next t →
      ∃ t', exec i (s.setReg VF b) = .next t' ∧ t'.setReg VF (t.reg VF) = t) ∧
    (∀ f, exec i s = .fault f → exec i (s.setReg VF b) = .fault f)

/-- Only the instructions that store change memory, and only the bytes they store (20_memory R62); `draws` counts the executed `RND`s (R174). -/
def Obligations.OnlyStoresChangeMemoryAndOnlyRandomDraws : Prop :=
  ∀ (i : Instr) (s t : State), exec i s = .next t →
    (∀ a, storesTo i s a = false → t.mem.read a = s.mem.read a) ∧
    (t.draws = if ∃ x kk, i = .rndVxKk x kk then s.draws + 1 else s.draws)

/-- What no instruction looks at (10_state R31, R32, R35, R39): the sound timer and the redraw signal never, the keys only by `SKP`, `SKNP`, `LD Vx,K`, the delay timer only by `LD Vx,DT`; change them, and the rest of the next state and any fault are the same. -/
def Obligations.TimersKeysAndRedrawAreReadOnlyByTheirReaders : Prop :=
  ∀ (i : Instr) (s : State) (st dt : Byte) (redraw : Bool) (keys : Vector Bool 16),
    (readsKeys i = true → keys = s.keys) → (readsDelay i = true → dt = s.dt) →
    (∀ t, exec i s = .next t →
      ∃ t', exec i { s with st := st, dt := dt, redraw := redraw, keys := keys } = .next t' ∧
        t = { t' with st := t.st, dt := t.dt, redraw := t.redraw, keys := t.keys }) ∧
    (∀ f, exec i s = .fault f →
      exec i { s with st := st, dt := dt, redraw := redraw, keys := keys } = .fault f)

/-- Stale stack slots are unobservable (10_state R29; decision D18, log entry 18): two states that differ only in slots at or above `SP` behave the same, and still differ only there. -/
def Obligations.StaleStackSlotsAreUnobservable : Prop :=
  ∀ (i : Instr) (s : State) (stack : Vector Word16 16), (∀ k : Fin 16, k.val < s.sp.val → stack[k] = s.stack[k]) →
    (∀ t, exec i s = .next t →
      ∃ t', exec i { s with stack := stack } = .next t' ∧ t = { t' with stack := t.stack } ∧
        ∀ k : Fin 16, k.val < t.sp.val → t'.stack[k] = t.stack[k]) ∧
    (∀ f, exec i s = .fault f → exec i { s with stack := stack } = .fault f)

/-! ### Reset and invariants -/

/-- The state after reset (R40, R250), all of the font among it, its sixteen glyphs written out (R34). The font's base and bytes, and every value but the registers' and `pc`'s, are the spec's decisions D1, D2, D3, D14 (log entries 3, 4, 10); `draws` is the model's own (log entry 1). -/
def Obligations.ResetHoldsTheTabledValues : Prop :=
  let s := State.reset
  (∀ r, s.reg r = 0) ∧ s.pc = 0x200 ∧ s.i = 0 ∧ s.sp.val = 0 ∧ (∀ k : Fin 16, s.stack[k] = 0) ∧ s.dt = 0 ∧ s.st = 0 ∧
  (∀ k : Fin 16, s.keys[k] = false) ∧ (∀ r c, s.fb.pixel r c = false) ∧ s.redraw = false ∧
  (∀ a, a < 0x050 ∨ 0x0A0 ≤ a → s.mem.read a = 0) ∧
  s.mem.readBytes 0x050 80 =
    [0xF0, 0x90, 0x90, 0x90, 0xF0] ++ [0x20, 0x60, 0x20, 0x20, 0x70] ++ [0xF0, 0x10, 0xF0, 0x80, 0xF0] ++
    [0xF0, 0x10, 0xF0, 0x10, 0xF0] ++ [0x90, 0x90, 0xF0, 0x10, 0x10] ++ [0xF0, 0x80, 0xF0, 0x10, 0xF0] ++
    [0xF0, 0x80, 0xF0, 0x90, 0xF0] ++ [0xF0, 0x10, 0x20, 0x40, 0x40] ++ [0xF0, 0x90, 0xF0, 0x90, 0xF0] ++
    [0xF0, 0x90, 0xF0, 0x10, 0xF0] ++ [0xF0, 0x90, 0xF0, 0x90, 0x90] ++ [0xE0, 0x90, 0xE0, 0x90, 0xE0] ++
    [0xF0, 0x80, 0x80, 0x80, 0xF0] ++ [0xE0, 0x90, 0x90, 0x90, 0xE0] ++ [0xF0, 0x80, 0xF0, 0x80, 0xF0] ++
    [0xF0, 0x80, 0xF0, 0x80, 0x80]

/-- The first step after reset and a load fetches the image's first two bytes, the first as the high byte (R251, R253, R63). -/
def Obligations.FirstFetchIsTheImagesFirstWord : Prop :=
  ∀ (hi lo : Byte) (rest : List Byte) (s : State), loadProgram (hi :: lo :: rest) State.reset = some s →
    s.pc.toNat = 0x200 ∧ s.fetchWord.toNat = hi.toNat * 256 + lo.toNat

/-- The invariant holds at reset. -/
def Obligations.ResetMeetsTheInvariant : Prop := Inv State.reset

/-- Every step keeps the invariant: memory stays in its canonical form, `pc` at most 0x10FE and every stack slot at most 0x1000 (R27, R39). -/
def Obligations.EveryStepKeepsTheInvariant : Prop :=
  ∀ s t : State, Inv s → step s = .next t → Inv t

/-- The invariant holds in every run HOST can bring about with steps, ticks, key presses, loads and redraw checks (R50, R215). -/
def Obligations.EveryReachableRunMeetsTheInvariant : Prop :=
  ∀ σ : Session, Reachable σ → Inv σ.core

/-- A faulting step leaves the state as it was and ends the run; after that, and for a load after a step or a second load, there is no transition (R210, R216, R226, R227; decisions D16, D22, log entries 16, 20). -/
def Obligations.FaultsEndTheRunAndLoadsComeFirst : Prop :=
  (∀ (σ : Session) (f : Fault), (∀ g, σ.phase ≠ .ended g) → step σ.core = .fault f →
    σ.apply .step = .ok ⟨.ended f, σ.core⟩ (.fault f)) ∧
  (∀ (σ : Session) (f : Fault) (o : Op), σ.phase = .ended f → σ.apply o = .refused (.runEnded f)) ∧
  (∀ (σ : Session) (bytes : List Byte), σ.phase = .running ∨ σ.phase = .loaded →
    σ.apply (.loadProgram bytes) = .refused .loadMidRun)

/-- Every operation of a run keeps the invariant, from any session whose state meets it: a step, a tick, a load, a key change, a framebuffer read and a redraw check (R50, R210 to R215; the operations that have a transition are those of decisions D16, D22, D29, log entries 8, 16). -/
def Obligations.EveryOperationKeepsTheInvariant : Prop :=
  ∀ (a b : Session) (o : Op) (r : Reply), Inv a.core → a.apply o = .ok b r → Inv b.core
end

