-- ==== Sys2Proof/Laws/Memory.lean ====
section
/-! SUPPORT. The laws of memory: a read after a write, the canonical form kept by every operation, and equal reads giving equal memories (20_memory R68, R69). -/

namespace Sys2Proof.Machine.Memory

/-- An address above every key of a canonical memory is not listed before it. -/
theorem read_eq_reset_of_forall_ne {m : Memory} {a : Nat} (h : ∀ p ∈ m, p.1 ≠ a) : m.read a = resetByte a := by
  induction m with
  | nil => rfl
  | cons p rest ih =>
    obtain ⟨b, w⟩ := p
    have hb : b ≠ a := h (b, w) (by simp)
    simpa [read, hb] using ih fun q hq => h q (by simp [hq])

theorem read_eq_of_mem {m : Memory} (hm : m.Pairwise (fun p q => p.1 < q.1)) {p : Host.Cell} (hp : p ∈ m) :
    m.read p.1 = p.2 := by
  induction m with
  | nil => simp at hp
  | cons q rest ih =>
    obtain ⟨hq, hrest⟩ := List.pairwise_cons.mp hm
    rcases List.mem_cons.mp hp with rfl | hp
    · simp [read]
    · have : q.1 ≠ p.1 := Nat.ne_of_lt (hq p hp)
      simpa [read, this] using ih hrest hp

/-! ### `eraseEntry` -/

theorem mem_of_mem_eraseEntry {m : Memory} {a : Nat} {p : Host.Cell} (h : p ∈ m.eraseEntry a) : p ∈ m := by
  induction m with
  | nil => simp [eraseEntry] at h
  | cons q rest ih =>
    obtain ⟨b, w⟩ := q
    simp only [eraseEntry] at h
    split at h
    · exact List.mem_cons_of_mem _ h
    · rcases List.mem_cons.mp h with rfl | h
      · simp
      · exact List.mem_cons_of_mem _ (ih h)

theorem eraseEntry_pairwise {m : Memory} (a : Nat) (h : m.Pairwise (fun p q => p.1 < q.1)) :
    (m.eraseEntry a).Pairwise (fun p q => p.1 < q.1) := by
  induction m with
  | nil => simp [eraseEntry]
  | cons q rest ih =>
    obtain ⟨b, w⟩ := q
    obtain ⟨hq, hrest⟩ := List.pairwise_cons.mp h
    simp only [eraseEntry]
    split
    · exact hrest
    · exact List.pairwise_cons.mpr ⟨fun p hp => hq p (mem_of_mem_eraseEntry hp), ih hrest⟩

theorem read_eraseEntry {m : Memory} (h : m.Pairwise (fun p q => p.1 < q.1)) (a c : Nat) :
    (m.eraseEntry a).read c = if c = a then resetByte c else m.read c := by
  induction m with
  | nil => simp [eraseEntry, read]
  | cons q rest ih =>
    obtain ⟨b, w⟩ := q
    obtain ⟨hq, hrest⟩ := List.pairwise_cons.mp h
    by_cases hba : b = a
    · subst hba
      by_cases hc : c = b
      · subst hc
        simp only [eraseEntry, if_true]
        exact read_eq_reset_of_forall_ne fun p hp => (Nat.ne_of_lt (hq p hp)).symm
      · simp [eraseEntry, read, hc, Ne.symm hc]
    · by_cases hc : c = b
      · subst hc; simp [eraseEntry, read, hba]
      · simp [eraseEntry, read, hba, Ne.symm hc, ih hrest]

theorem read_eraseEntry_ne (m : Memory) {a c : Nat} (h : c ≠ a) : (m.eraseEntry a).read c = m.read c := by
  induction m with
  | nil => rfl
  | cons q rest ih =>
    obtain ⟨b, w⟩ := q
    by_cases hba : b = a
    · subst hba; simp [eraseEntry, read, Ne.symm h]
    · simp [eraseEntry, read, hba, ih]

/-! ### `insertEntry` -/

theorem mem_of_mem_insertEntry {m : Memory} {a : Nat} {w : Byte} {p : Host.Cell} (h : p ∈ m.insertEntry a w) :
    p = (a, w) ∨ p ∈ m := by
  induction m with
  | nil => simpa [insertEntry] using h
  | cons q rest ih =>
    obtain ⟨b, u⟩ := q
    simp only [insertEntry] at h
    split at h
    · simpa using h
    · split at h
      · rcases List.mem_cons.mp h with h | h
        · exact .inl h
        · exact .inr (List.mem_cons_of_mem _ h)
      · rcases List.mem_cons.mp h with rfl | h
        · exact .inr (by simp)
        · exact (ih h).imp_right (List.mem_cons_of_mem _)

theorem insertEntry_pairwise {m : Memory} (a : Nat) (w : Byte) (h : m.Pairwise (fun p q => p.1 < q.1)) :
    (m.insertEntry a w).Pairwise (fun p q => p.1 < q.1) := by
  induction m with
  | nil => simp [insertEntry]
  | cons q rest ih =>
    obtain ⟨b, u⟩ := q
    obtain ⟨hq, hrest⟩ := List.pairwise_cons.mp h
    simp only [insertEntry]
    split
    · rename_i hab
      refine List.pairwise_cons.mpr ⟨fun p hp => ?_, h⟩
      rcases List.mem_cons.mp hp with rfl | hp
      · exact hab
      · exact Nat.lt_trans hab (hq p hp)
    · split
      · rename_i _ hab
        subst hab
        exact List.pairwise_cons.mpr ⟨hq, hrest⟩
      · rename_i hab hne
        refine List.pairwise_cons.mpr ⟨fun p hp => ?_, ih hrest⟩
        rcases mem_of_mem_insertEntry hp with rfl | hp
        · show b < a; omega
        · exact hq p hp

theorem read_insertEntry (m : Memory) (a c : Nat) (w : Byte) :
    (m.insertEntry a w).read c = if c = a then w else m.read c := by
  induction m with
  | nil => simp [insertEntry, read, eq_comm]
  | cons q rest ih =>
    obtain ⟨b, u⟩ := q
    simp only [insertEntry]
    split
    · by_cases hc : c = a
      · subst hc; simp [read]
      · simp [read, hc, Ne.symm hc]
    · split
      · rename_i _ hab
        subst hab
        by_cases hc : c = a
        · subst hc; simp [read]
        · simp [read, hc, Ne.symm hc]
      · rename_i _ hne
        by_cases hcb : c = b
        · subst hcb; simp [read, Ne.symm hne]
        · simp [read, Ne.symm hcb, ih]

/-! ### `write` -/

/-- A read after a write: the byte written at its own address, what was there at every other (R68). -/
theorem read_write {m : Memory} (h : m.wf) {a : Nat} (ha : a < 4096) (w : Byte) (c : Nat) :
    (m.write a w).read c = if c = a then w else m.read c := by
  have hlt : ¬ (Config.memSize ≤ a) := by simp [Config.memSize]; omega
  simp only [write, hlt, if_false]
  split
  · rename_i hw
    rw [read_eraseEntry h.1]
    split
    · rename_i hc; rw [hc, hw]
    · rfl
  · exact read_insertEntry m a c w

/-- A write leaves every other address alone, whatever the list (R68). -/
theorem read_write_ne (m : Memory) {a c : Nat} (w : Byte) (h : c ≠ a) : (m.write a w).read c = m.read c := by
  unfold write
  split
  · rfl
  · split
    · exact read_eraseEntry_ne m h
    · rw [read_insertEntry, if_neg h]

/-- A write keeps the canonical form. -/
theorem write_wf {m : Memory} (h : m.wf) (a : Nat) (w : Byte) : (m.write a w).wf := by
  unfold write
  split
  · exact h
  · rename_i ha
    split
    · exact ⟨eraseEntry_pairwise a h.1, fun p hp => h.2 p (mem_of_mem_eraseEntry hp)⟩
    · rename_i hw
      refine ⟨insertEntry_pairwise a w h.1, fun p hp => ?_⟩
      rcases mem_of_mem_insertEntry hp with rfl | hp
      · exact ⟨Nat.lt_of_not_le ha, hw⟩
      · exact h.2 p hp

/-! ### `writeBytes` and `readBytes` -/

/-- Every multi-byte write keeps the canonical form. -/
theorem writeBytes_wf {m : Memory} (h : m.wf) (a : Nat) (ws : List Byte) : (m.writeBytes a ws).wf := by
  induction ws generalizing m a with
  | nil => exact h
  | cons w ws ih => exact ih (write_wf h a w) (a + 1)

/-- What a multi-byte write leaves at an address: the byte written there, or what was there (R63). -/
theorem read_writeBytes {m : Memory} (h : m.wf) {a : Nat} {ws : List Byte} (hr : a + ws.length ≤ 4096) (c : Nat) :
    (m.writeBytes a ws).read c = if a ≤ c ∧ c < a + ws.length then ws.getD (c - a) 0 else m.read c := by
  induction ws generalizing m a with
  | nil => simp [writeBytes]
  | cons w ws ih =>
    simp only [List.length_cons] at hr
    rw [writeBytes, ih (write_wf h a w) (by omega), read_write h (by omega)]
    simp only [List.length_cons]
    by_cases hca : c = a
    · subst hca; simp
    · by_cases hin : a + 1 ≤ c ∧ c < a + 1 + ws.length
      · rw [if_pos hin, if_pos ⟨by omega, by omega⟩, show c - a = (c - (a + 1)) + 1 by omega]
        simp
      · rw [if_neg hin, if_neg hca, if_neg (by omega)]

/-- An address outside a multi-byte write reads as before, whatever the list. -/
theorem read_writeBytes_outside (m : Memory) {a : Nat} {ws : List Byte} {c : Nat} (hc : c < a ∨ a + ws.length ≤ c) :
    (m.writeBytes a ws).read c = m.read c := by
  induction ws generalizing m a with
  | nil => rfl
  | cons w ws ih =>
    simp only [List.length_cons] at hc
    rw [writeBytes, ih (m.write a w) (by omega), read_write_ne m w (by omega)]

@[simp] theorem readBytes_length (m : Memory) (a n : Nat) : (m.readBytes a n).length = n := by
  induction n generalizing a with
  | zero => rfl
  | succ n ih => simp [readBytes, ih]

/-- The `r`-th byte of a multi-byte read is the byte at `a + r` (R63). -/
theorem readBytes_getD (m : Memory) (a n r : Nat) (h : r < n) : (m.readBytes a n).getD r 0 = m.read (a + r) := by
  induction n generalizing a r with
  | zero => omega
  | succ n ih =>
    cases r with
    | zero => simp [readBytes]
    | succ r =>
      rw [show a + (r + 1) = a + 1 + r by omega]
      exact ih (a + 1) r (by omega)

/-! ### Equal memories are equal data -/

theorem exists_entry_of_read_eq {b : Nat} {w : Byte} {rest m' : Memory} (h : Memory.wf ((b, w) :: rest))
    (hr : ∀ a, a < 4096 → Memory.read ((b, w) :: rest) a = m'.read a) : ∃ p ∈ m', p.1 = b := by
  by_contra hne
  have hne' : ∀ p ∈ m', p.1 ≠ b := by
    intro p hp hpb
    exact hne ⟨p, hp, hpb⟩
  have hb := h.2 (b, w) (by simp)
  have := hr b hb.1
  rw [read_eq_reset_of_forall_ne hne'] at this
  simp [read] at this
  exact hb.2 this

/-- The canonical form is unique: two canonical memories that read the same at every address are the same list. -/
theorem eq_of_read_eq {m m' : Memory} (h : m.wf) (h' : m'.wf) (hr : ∀ a, a < 4096 → m.read a = m'.read a) : m = m' := by
  induction m generalizing m' with
  | nil =>
    cases m' with
    | nil => rfl
    | cons q rest' =>
      obtain ⟨b', w'⟩ := q
      obtain ⟨p, hp, -⟩ := exists_entry_of_read_eq h' fun a ha => (hr a ha).symm
      simp at hp
  | cons q rest ih =>
    obtain ⟨b, w⟩ := q
    cases m' with
    | nil =>
      obtain ⟨p, hp, -⟩ := exists_entry_of_read_eq h hr
      simp at hp
    | cons q' rest' =>
      obtain ⟨b', w'⟩ := q'
      obtain ⟨p, hp, hpb⟩ := exists_entry_of_read_eq h hr
      obtain ⟨p', hp', hpb'⟩ := exists_entry_of_read_eq h' fun a ha => (hr a ha).symm
      obtain ⟨hlt, hrest⟩ := List.pairwise_cons.mp h.1
      obtain ⟨hlt', hrest'⟩ := List.pairwise_cons.mp h'.1
      have hbb : b = b' := by
        have h1 : b' ≤ b := by
          rcases List.mem_cons.mp hp with rfl | hp
          · exact Nat.le_of_eq hpb
          · have := hlt' p hp; simp only at this; omega
        have h2 : b ≤ b' := by
          rcases List.mem_cons.mp hp' with rfl | hp'
          · exact Nat.le_of_eq hpb'
          · have := hlt p' hp'; simp only at this; omega
        omega
      subst hbb
      have hb := h.2 (b, w) (by simp)
      have hw : w = w' := by simpa [read] using hr b hb.1
      subst hw
      have : rest = rest' := by
        refine ih ⟨hrest, fun p hp => h.2 p (by simp [hp])⟩ ⟨hrest', fun p hp => h'.2 p (by simp [hp])⟩ fun a ha => ?_
        by_cases hab : b = a
        · subst hab
          rw [read_eq_reset_of_forall_ne fun p hp => (Nat.ne_of_lt (hlt p hp)).symm,
            read_eq_reset_of_forall_ne fun p hp => (Nat.ne_of_lt (hlt' p hp)).symm]
        · have := hr a ha
          simpa [read, hab] using this
      rw [this]

end Sys2Proof.Machine.Memory
end

