-- ==== Sys2Proof/Laws/Display.lean ====
section
/-! SUPPORT. The laws of the framebuffer and of the blit: what every pixel is after a sprite is drawn, and when the draw collides (45_display R191, R192). -/

namespace Sys2Proof.Machine

open Sys2Proof.Safety

/-! ### Pixels -/

theorem Framebuffer.pixel_setPixel (fb : Framebuffer) (r c r' c' : Nat) (b : Bool) :
    (fb.setPixel r c b).pixel r' c' =
      if r' = r ∧ c' = c ∧ r < 32 ∧ c < 64 then b else fb.pixel r' c' := by
  unfold Framebuffer.setPixel
  by_cases h : r < Config.fbH ∧ c < Config.fbW
  · rw [dif_pos h]
    unfold Framebuffer.pixel
    by_cases h' : r' < Config.fbH ∧ c' < Config.fbW
    · simp only [h', dite_true, and_self, Vector.getElem_set]
      have h1 : r < 32 := h.1
      have h2 : c < 64 := h.2
      by_cases hr : r = r'
      · subst hr
        by_cases hc : c = c'
        · subst hc; simp [h1, h2]
        · simp [hc, Ne.symm hc]
      · simp [hr, Ne.symm hr]
    · rw [dif_neg h', dif_neg h']
      split
      · rename_i hh; exact absurd ⟨hh.1 ▸ hh.2.2.1, hh.2.1 ▸ hh.2.2.2⟩ h'
      · rfl
  · rw [dif_neg h, if_neg fun hh => h ⟨hh.2.2.1, hh.2.2.2⟩]

/-- There is no pixel outside the grid (R33). -/
theorem Framebuffer.pixel_outside (fb : Framebuffer) (r c : Nat) (h : ¬ (r < 32 ∧ c < 64)) : fb.pixel r c = false := by
  unfold Framebuffer.pixel; exact dif_neg h

@[simp] theorem Framebuffer.pixel_clear (r c : Nat) : Framebuffer.clear.pixel r c = false := by
  unfold Framebuffer.pixel Framebuffer.clear
  split <;> simp

/-- Two framebuffers with the same pixels are the same (R33). -/
theorem Framebuffer.ext_pixel {fb fb' : Framebuffer} (h : ∀ r c, r < 32 → c < 64 → fb.pixel r c = fb'.pixel r c) :
    fb = fb' := by
  apply Vector.ext; intro r hr
  apply Vector.ext; intro c hc
  have := h r c hr hc
  simpa [Framebuffer.pixel, show r < Config.fbH ∧ c < Config.fbW from ⟨hr, hc⟩] using this

/-! ### The blit, cell by cell -/

/-- What one step of a blit does to a framebuffer and a collision bit: `d` says which pixels it inverts. -/
structure Inverts (acc acc' : Framebuffer × Bool) (d : Nat → Nat → Bool) : Prop where
  pixel : ∀ r c, r < 32 → c < 64 → acc'.1.pixel r c = (acc.1.pixel r c ^^ d r c)
  collision : acc'.2 = true ↔ acc.2 = true ∨ ∃ r c, r < 32 ∧ c < 64 ∧ d r c = true ∧ acc.1.pixel r c = true

theorem Inverts.refl (acc : Framebuffer × Bool) : Inverts acc acc (fun _ _ => false) :=
  ⟨by simp, by simp⟩

theorem Inverts.congr {acc acc' : Framebuffer × Bool} {d e : Nat → Nat → Bool} (h : Inverts acc acc' d)
    (hd : ∀ r c, r < 32 → c < 64 → d r c = e r c) : Inverts acc acc' e := by
  refine ⟨fun r c hr hc => by rw [h.pixel r c hr hc, hd r c hr hc], ?_⟩
  rw [h.collision]
  refine or_congr_right (exists_congr fun r => exists_congr fun c => and_congr_right fun hr => and_congr_right fun hc => ?_)
  rw [hd r c hr hc]

/-- Two parts of a blit that touch different pixels are one part that touches both (each pixel is touched at most once, R191). -/
theorem Inverts.trans {a b c : Framebuffer × Bool} {d e : Nat → Nat → Bool} (h : Inverts a b d) (h' : Inverts b c e)
    (hde : ∀ i j, d i j = true → e i j = false) : Inverts a c (fun i j => d i j || e i j) := by
  have key : ∀ i j, (d i j ^^ e i j) = (d i j || e i j) := by
    intro i j
    have := hde i j
    cases hd : d i j <;> simp_all
  refine ⟨fun i j hi hj => ?_, ?_⟩
  · rw [h'.pixel i j hi hj, h.pixel i j hi hj, Bool.xor_assoc, key]
  · rw [h'.collision, h.collision]
    constructor
    · rintro ((ha | ⟨i, j, hi, hj, hd, hp⟩) | ⟨i, j, hi, hj, he, hp⟩)
      · exact .inl ha
      · exact .inr ⟨i, j, hi, hj, by simp [hd], hp⟩
      · refine .inr ⟨i, j, hi, hj, by simp [he], ?_⟩
        have hd : d i j = false := by
          by_contra hd
          simp [hde i j (by simpa using hd)] at he
        simpa [h.pixel i j hi hj, hd] using hp
    · rintro (ha | ⟨i, j, hi, hj, hd, hp⟩)
      · exact .inl (.inl ha)
      · rcases Bool.or_eq_true_iff.mp hd with hd | he
        · exact .inl (.inr ⟨i, j, hi, hj, hd, hp⟩)
        · refine .inr ⟨i, j, hi, hj, he, ?_⟩
          have hd : d i j = false := by
            by_contra hd
            simp [hde i j (by simpa using hd)] at he
          simpa [h.pixel i j hi hj, hd] using hp

theorem blitCell_inverts (acc : Framebuffer × Bool) (row col : Nat) (bit : Bool) :
    Inverts acc (blitCell acc row col bit) (fun r c => bit && decide (r = row) && decide (c = col)) := by
  unfold blitCell
  split
  · rename_i h
    obtain ⟨hb, hr, hc⟩ := h
    have hr : row < 32 := hr
    have hc : col < 64 := hc
    subst hb
    refine ⟨fun i j _ _ => ?_, ?_⟩
    · simp only [Framebuffer.pixel_setPixel, hr, hc, and_true, Bool.true_and]
      by_cases hi : i = row <;> by_cases hj : j = col <;> simp [hi, hj]
    · simp only [Bool.or_eq_true, Bool.true_and, Bool.and_eq_true, decide_eq_true_eq]
      refine or_congr_right ⟨fun h => ⟨row, col, hr, hc, ⟨rfl, rfl⟩, h⟩, ?_⟩
      rintro ⟨_, _, _, _, ⟨rfl, rfl⟩, h⟩
      exact h
  · rename_i h
    refine (Inverts.refl acc).congr fun i j hi hj => ?_
    by_contra hne
    have hne : bit = true ∧ i = row ∧ j = col := by simpa using hne
    exact h ⟨hne.1, hne.2.1 ▸ hi, hne.2.2 ▸ hj⟩

/-- The cells `0 .. k-1` of a sprite row. -/
theorem foldl_blitCell_inverts (acc : Framebuffer × Bool) (row x0 : Nat) (b : Byte) (k : Nat) :
    Inverts acc ((List.range k).foldl (fun acc c => blitCell acc row (x0 + c) (b.getLsbD (7 - c))) acc)
      (fun r c => decide (r = row) && decide (x0 ≤ c) && decide (c < x0 + k) && b.getLsbD (7 - (c - x0))) := by
  induction k with
  | zero =>
    refine (Inverts.refl acc).congr fun r c _ _ => ?_
    by_cases h : x0 ≤ c
    · simp [show ¬ c < x0 by omega]
    · simp [h]
  | succ k ih =>
    rw [List.range_succ, List.foldl_append]
    refine (ih.trans (blitCell_inverts _ row (x0 + k) (b.getLsbD (7 - k))) ?_).congr ?_
    · intro i j h
      simp only [Bool.and_eq_true, decide_eq_true_eq] at h
      simp [show j ≠ x0 + k by omega]
    · intro i j _ _
      by_cases hi : i = row
      · by_cases hj : j = x0 + k
        · subst hj; simp [hi]
        · by_cases hlt : j < x0 + k
          · simp [hi, hj, hlt, show j < x0 + (k + 1) by omega]
          · simp [hi, hj, hlt, show ¬ j < x0 + (k + 1) by omega]
      · simp [hi]

theorem blitRow_inverts (acc : Framebuffer × Bool) (row x0 : Nat) (b : Byte) :
    Inverts acc (blitRow acc row x0 b)
      (fun r c => decide (r = row) && decide (x0 ≤ c) && decide (c < x0 + 8) && b.getLsbD (7 - (c - x0))) :=
  foldl_blitCell_inverts acc row x0 b 8

theorem blitRows_inverts (acc : Framebuffer × Bool) (row x0 : Nat) (sprite : List Byte) :
    Inverts acc (blitRows acc row x0 sprite) (spriteBit sprite row x0) := by
  induction sprite generalizing acc row with
  | nil =>
    refine (Inverts.refl acc).congr fun r c _ _ => ?_
    simp [spriteBit]
  | cons b bs ih =>
    refine ((blitRow_inverts acc row x0 b).trans (ih (blitRow acc row x0 b) (row + 1)) ?_).congr ?_
    · intro i j h
      simp only [Bool.and_eq_true, decide_eq_true_eq] at h
      simp [spriteBit, show ¬ row + 1 ≤ i by omega]
    · intro i j _ _
      by_cases hi : i = row
      · subst hi; simp [spriteBit]
      · by_cases hlt : row + 1 ≤ i
        · obtain ⟨t, rfl⟩ := Nat.exists_eq_add_of_le hlt
          simp only [spriteBit, List.length_cons, show row + 1 + t - row = t + 1 by omega, show row + 1 + t - (row + 1) = t by omega,
            List.getD_cons_succ]
          simp [show ¬ row + 1 + t = row by omega, show row ≤ row + 1 + t by omega,
            show (row + 1 + t < row + 1 + bs.length) ↔ (row + 1 + t < row + (bs.length + 1)) by omega]
        · simp [spriteBit, hi, hlt, show ¬ row ≤ i by omega]

/-- Everything a blit does: each pixel of the grid is XORed with the sprite bit that falls on it, and it collides iff some such bit is 1 over a set pixel (R191 (b), (d)). -/
theorem blit_pixel (fb : Framebuffer) (y0 x0 : Nat) (sprite : List Byte) (r c : Nat) (hr : r < 32) (hc : c < 64) :
    (blit fb y0 x0 sprite).1.pixel r c = (fb.pixel r c ^^ spriteBit sprite y0 x0 r c) :=
  (blitRows_inverts (fb, false) y0 x0 sprite).pixel r c hr hc

theorem blit_collision (fb : Framebuffer) (y0 x0 : Nat) (sprite : List Byte) :
    (blit fb y0 x0 sprite).2 = true ↔
      ∃ r c, r < 32 ∧ c < 64 ∧ spriteBit sprite y0 x0 r c = true ∧ fb.pixel r c = true := by
  simpa [blit] using (blitRows_inverts (fb, false) y0 x0 sprite).collision

end Sys2Proof.Machine
end

