-- ==== Sys2Proof/Laws/State.lean ====
section
/-! SUPPORT. One lemma per field per update of `State`, each true by rfl, and what an update does to a register. -/

namespace Sys2Proof.Machine.State

/-! ### `setReg` -/

@[simp] theorem setReg_mem (s : State) (x : Reg) (b : Byte) : (s.setReg x b).mem = s.mem := rfl
@[simp] theorem setReg_v (s : State) (x : Reg) (b : Byte) : (s.setReg x b).v = s.v.set x b := rfl
@[simp] theorem setReg_i (s : State) (x : Reg) (b : Byte) : (s.setReg x b).i = s.i := rfl
@[simp] theorem setReg_pc (s : State) (x : Reg) (b : Byte) : (s.setReg x b).pc = s.pc := rfl
@[simp] theorem setReg_stack (s : State) (x : Reg) (b : Byte) : (s.setReg x b).stack = s.stack := rfl
@[simp] theorem setReg_sp (s : State) (x : Reg) (b : Byte) : (s.setReg x b).sp = s.sp := rfl
@[simp] theorem setReg_dt (s : State) (x : Reg) (b : Byte) : (s.setReg x b).dt = s.dt := rfl
@[simp] theorem setReg_st (s : State) (x : Reg) (b : Byte) : (s.setReg x b).st = s.st := rfl
@[simp] theorem setReg_keys (s : State) (x : Reg) (b : Byte) : (s.setReg x b).keys = s.keys := rfl
@[simp] theorem setReg_fb (s : State) (x : Reg) (b : Byte) : (s.setReg x b).fb = s.fb := rfl
@[simp] theorem setReg_redraw (s : State) (x : Reg) (b : Byte) : (s.setReg x b).redraw = s.redraw := rfl
@[simp] theorem setReg_draws (s : State) (x : Reg) (b : Byte) : (s.setReg x b).draws = s.draws := rfl

/-! ### `setRegs` -/

@[simp] theorem setRegs_mem (s : State) (w : Vector Byte 16) : (s.setRegs w).mem = s.mem := rfl
@[simp] theorem setRegs_v (s : State) (w : Vector Byte 16) : (s.setRegs w).v = w := rfl
@[simp] theorem setRegs_i (s : State) (w : Vector Byte 16) : (s.setRegs w).i = s.i := rfl
@[simp] theorem setRegs_pc (s : State) (w : Vector Byte 16) : (s.setRegs w).pc = s.pc := rfl
@[simp] theorem setRegs_stack (s : State) (w : Vector Byte 16) : (s.setRegs w).stack = s.stack := rfl
@[simp] theorem setRegs_sp (s : State) (w : Vector Byte 16) : (s.setRegs w).sp = s.sp := rfl
@[simp] theorem setRegs_dt (s : State) (w : Vector Byte 16) : (s.setRegs w).dt = s.dt := rfl
@[simp] theorem setRegs_st (s : State) (w : Vector Byte 16) : (s.setRegs w).st = s.st := rfl
@[simp] theorem setRegs_keys (s : State) (w : Vector Byte 16) : (s.setRegs w).keys = s.keys := rfl
@[simp] theorem setRegs_fb (s : State) (w : Vector Byte 16) : (s.setRegs w).fb = s.fb := rfl
@[simp] theorem setRegs_redraw (s : State) (w : Vector Byte 16) : (s.setRegs w).redraw = s.redraw := rfl
@[simp] theorem setRegs_draws (s : State) (w : Vector Byte 16) : (s.setRegs w).draws = s.draws := rfl

/-! ### `setI` -/

@[simp] theorem setI_mem (s : State) (w : Word16) : (s.setI w).mem = s.mem := rfl
@[simp] theorem setI_v (s : State) (w : Word16) : (s.setI w).v = s.v := rfl
@[simp] theorem setI_i (s : State) (w : Word16) : (s.setI w).i = w := rfl
@[simp] theorem setI_pc (s : State) (w : Word16) : (s.setI w).pc = s.pc := rfl
@[simp] theorem setI_stack (s : State) (w : Word16) : (s.setI w).stack = s.stack := rfl
@[simp] theorem setI_sp (s : State) (w : Word16) : (s.setI w).sp = s.sp := rfl
@[simp] theorem setI_dt (s : State) (w : Word16) : (s.setI w).dt = s.dt := rfl
@[simp] theorem setI_st (s : State) (w : Word16) : (s.setI w).st = s.st := rfl
@[simp] theorem setI_keys (s : State) (w : Word16) : (s.setI w).keys = s.keys := rfl
@[simp] theorem setI_fb (s : State) (w : Word16) : (s.setI w).fb = s.fb := rfl
@[simp] theorem setI_redraw (s : State) (w : Word16) : (s.setI w).redraw = s.redraw := rfl
@[simp] theorem setI_draws (s : State) (w : Word16) : (s.setI w).draws = s.draws := rfl
@[simp] theorem setI_reg (s : State) (w : Word16) (r : Reg) : (s.setI w).reg r = s.reg r := rfl

/-! ### `setPc` -/

@[simp] theorem setPc_mem (s : State) (w : Word16) : (s.setPc w).mem = s.mem := rfl
@[simp] theorem setPc_v (s : State) (w : Word16) : (s.setPc w).v = s.v := rfl
@[simp] theorem setPc_i (s : State) (w : Word16) : (s.setPc w).i = s.i := rfl
@[simp] theorem setPc_pc (s : State) (w : Word16) : (s.setPc w).pc = w := rfl
@[simp] theorem setPc_stack (s : State) (w : Word16) : (s.setPc w).stack = s.stack := rfl
@[simp] theorem setPc_sp (s : State) (w : Word16) : (s.setPc w).sp = s.sp := rfl
@[simp] theorem setPc_dt (s : State) (w : Word16) : (s.setPc w).dt = s.dt := rfl
@[simp] theorem setPc_st (s : State) (w : Word16) : (s.setPc w).st = s.st := rfl
@[simp] theorem setPc_keys (s : State) (w : Word16) : (s.setPc w).keys = s.keys := rfl
@[simp] theorem setPc_fb (s : State) (w : Word16) : (s.setPc w).fb = s.fb := rfl
@[simp] theorem setPc_redraw (s : State) (w : Word16) : (s.setPc w).redraw = s.redraw := rfl
@[simp] theorem setPc_draws (s : State) (w : Word16) : (s.setPc w).draws = s.draws := rfl
@[simp] theorem setPc_reg (s : State) (w : Word16) (r : Reg) : (s.setPc w).reg r = s.reg r := rfl

/-! ### `setMem` -/

@[simp] theorem setMem_mem (s : State) (m : Memory) : (s.setMem m).mem = m := rfl
@[simp] theorem setMem_v (s : State) (m : Memory) : (s.setMem m).v = s.v := rfl
@[simp] theorem setMem_i (s : State) (m : Memory) : (s.setMem m).i = s.i := rfl
@[simp] theorem setMem_pc (s : State) (m : Memory) : (s.setMem m).pc = s.pc := rfl
@[simp] theorem setMem_stack (s : State) (m : Memory) : (s.setMem m).stack = s.stack := rfl
@[simp] theorem setMem_sp (s : State) (m : Memory) : (s.setMem m).sp = s.sp := rfl
@[simp] theorem setMem_dt (s : State) (m : Memory) : (s.setMem m).dt = s.dt := rfl
@[simp] theorem setMem_st (s : State) (m : Memory) : (s.setMem m).st = s.st := rfl
@[simp] theorem setMem_keys (s : State) (m : Memory) : (s.setMem m).keys = s.keys := rfl
@[simp] theorem setMem_fb (s : State) (m : Memory) : (s.setMem m).fb = s.fb := rfl
@[simp] theorem setMem_redraw (s : State) (m : Memory) : (s.setMem m).redraw = s.redraw := rfl
@[simp] theorem setMem_draws (s : State) (m : Memory) : (s.setMem m).draws = s.draws := rfl
@[simp] theorem setMem_reg (s : State) (m : Memory) (r : Reg) : (s.setMem m).reg r = s.reg r := rfl

/-! ### `setDt` -/

@[simp] theorem setDt_mem (s : State) (b : Byte) : (s.setDt b).mem = s.mem := rfl
@[simp] theorem setDt_v (s : State) (b : Byte) : (s.setDt b).v = s.v := rfl
@[simp] theorem setDt_i (s : State) (b : Byte) : (s.setDt b).i = s.i := rfl
@[simp] theorem setDt_pc (s : State) (b : Byte) : (s.setDt b).pc = s.pc := rfl
@[simp] theorem setDt_stack (s : State) (b : Byte) : (s.setDt b).stack = s.stack := rfl
@[simp] theorem setDt_sp (s : State) (b : Byte) : (s.setDt b).sp = s.sp := rfl
@[simp] theorem setDt_dt (s : State) (b : Byte) : (s.setDt b).dt = b := rfl
@[simp] theorem setDt_st (s : State) (b : Byte) : (s.setDt b).st = s.st := rfl
@[simp] theorem setDt_keys (s : State) (b : Byte) : (s.setDt b).keys = s.keys := rfl
@[simp] theorem setDt_fb (s : State) (b : Byte) : (s.setDt b).fb = s.fb := rfl
@[simp] theorem setDt_redraw (s : State) (b : Byte) : (s.setDt b).redraw = s.redraw := rfl
@[simp] theorem setDt_draws (s : State) (b : Byte) : (s.setDt b).draws = s.draws := rfl
@[simp] theorem setDt_reg (s : State) (b : Byte) (r : Reg) : (s.setDt b).reg r = s.reg r := rfl

/-! ### `setSt` -/

@[simp] theorem setSt_mem (s : State) (b : Byte) : (s.setSt b).mem = s.mem := rfl
@[simp] theorem setSt_v (s : State) (b : Byte) : (s.setSt b).v = s.v := rfl
@[simp] theorem setSt_i (s : State) (b : Byte) : (s.setSt b).i = s.i := rfl
@[simp] theorem setSt_pc (s : State) (b : Byte) : (s.setSt b).pc = s.pc := rfl
@[simp] theorem setSt_stack (s : State) (b : Byte) : (s.setSt b).stack = s.stack := rfl
@[simp] theorem setSt_sp (s : State) (b : Byte) : (s.setSt b).sp = s.sp := rfl
@[simp] theorem setSt_dt (s : State) (b : Byte) : (s.setSt b).dt = s.dt := rfl
@[simp] theorem setSt_st (s : State) (b : Byte) : (s.setSt b).st = b := rfl
@[simp] theorem setSt_keys (s : State) (b : Byte) : (s.setSt b).keys = s.keys := rfl
@[simp] theorem setSt_fb (s : State) (b : Byte) : (s.setSt b).fb = s.fb := rfl
@[simp] theorem setSt_redraw (s : State) (b : Byte) : (s.setSt b).redraw = s.redraw := rfl
@[simp] theorem setSt_draws (s : State) (b : Byte) : (s.setSt b).draws = s.draws := rfl
@[simp] theorem setSt_reg (s : State) (b : Byte) (r : Reg) : (s.setSt b).reg r = s.reg r := rfl

/-! ### `putKey` -/

@[simp] theorem putKey_mem (s : State) (k : Fin 16) (b : Bool) : (s.putKey k b).mem = s.mem := rfl
@[simp] theorem putKey_v (s : State) (k : Fin 16) (b : Bool) : (s.putKey k b).v = s.v := rfl
@[simp] theorem putKey_i (s : State) (k : Fin 16) (b : Bool) : (s.putKey k b).i = s.i := rfl
@[simp] theorem putKey_pc (s : State) (k : Fin 16) (b : Bool) : (s.putKey k b).pc = s.pc := rfl
@[simp] theorem putKey_stack (s : State) (k : Fin 16) (b : Bool) : (s.putKey k b).stack = s.stack := rfl
@[simp] theorem putKey_sp (s : State) (k : Fin 16) (b : Bool) : (s.putKey k b).sp = s.sp := rfl
@[simp] theorem putKey_dt (s : State) (k : Fin 16) (b : Bool) : (s.putKey k b).dt = s.dt := rfl
@[simp] theorem putKey_st (s : State) (k : Fin 16) (b : Bool) : (s.putKey k b).st = s.st := rfl
@[simp] theorem putKey_keys (s : State) (k : Fin 16) (b : Bool) : (s.putKey k b).keys = s.keys.set k b := rfl
@[simp] theorem putKey_fb (s : State) (k : Fin 16) (b : Bool) : (s.putKey k b).fb = s.fb := rfl
@[simp] theorem putKey_redraw (s : State) (k : Fin 16) (b : Bool) : (s.putKey k b).redraw = s.redraw := rfl
@[simp] theorem putKey_draws (s : State) (k : Fin 16) (b : Bool) : (s.putKey k b).draws = s.draws := rfl
@[simp] theorem putKey_reg (s : State) (k : Fin 16) (b : Bool) (r : Reg) : (s.putKey k b).reg r = s.reg r := rfl

/-! ### `setFb` -/

@[simp] theorem setFb_mem (s : State) (fb : Framebuffer) : (s.setFb fb).mem = s.mem := rfl
@[simp] theorem setFb_v (s : State) (fb : Framebuffer) : (s.setFb fb).v = s.v := rfl
@[simp] theorem setFb_i (s : State) (fb : Framebuffer) : (s.setFb fb).i = s.i := rfl
@[simp] theorem setFb_pc (s : State) (fb : Framebuffer) : (s.setFb fb).pc = s.pc := rfl
@[simp] theorem setFb_stack (s : State) (fb : Framebuffer) : (s.setFb fb).stack = s.stack := rfl
@[simp] theorem setFb_sp (s : State) (fb : Framebuffer) : (s.setFb fb).sp = s.sp := rfl
@[simp] theorem setFb_dt (s : State) (fb : Framebuffer) : (s.setFb fb).dt = s.dt := rfl
@[simp] theorem setFb_st (s : State) (fb : Framebuffer) : (s.setFb fb).st = s.st := rfl
@[simp] theorem setFb_keys (s : State) (fb : Framebuffer) : (s.setFb fb).keys = s.keys := rfl
@[simp] theorem setFb_fb (s : State) (fb : Framebuffer) : (s.setFb fb).fb = fb := rfl
@[simp] theorem setFb_redraw (s : State) (fb : Framebuffer) : (s.setFb fb).redraw = s.redraw := rfl
@[simp] theorem setFb_draws (s : State) (fb : Framebuffer) : (s.setFb fb).draws = s.draws := rfl
@[simp] theorem setFb_reg (s : State) (fb : Framebuffer) (r : Reg) : (s.setFb fb).reg r = s.reg r := rfl

/-! ### `setRedraw` -/

@[simp] theorem setRedraw_mem (s : State) (b : Bool) : (s.setRedraw b).mem = s.mem := rfl
@[simp] theorem setRedraw_v (s : State) (b : Bool) : (s.setRedraw b).v = s.v := rfl
@[simp] theorem setRedraw_i (s : State) (b : Bool) : (s.setRedraw b).i = s.i := rfl
@[simp] theorem setRedraw_pc (s : State) (b : Bool) : (s.setRedraw b).pc = s.pc := rfl
@[simp] theorem setRedraw_stack (s : State) (b : Bool) : (s.setRedraw b).stack = s.stack := rfl
@[simp] theorem setRedraw_sp (s : State) (b : Bool) : (s.setRedraw b).sp = s.sp := rfl
@[simp] theorem setRedraw_dt (s : State) (b : Bool) : (s.setRedraw b).dt = s.dt := rfl
@[simp] theorem setRedraw_st (s : State) (b : Bool) : (s.setRedraw b).st = s.st := rfl
@[simp] theorem setRedraw_keys (s : State) (b : Bool) : (s.setRedraw b).keys = s.keys := rfl
@[simp] theorem setRedraw_fb (s : State) (b : Bool) : (s.setRedraw b).fb = s.fb := rfl
@[simp] theorem setRedraw_redraw (s : State) (b : Bool) : (s.setRedraw b).redraw = b := rfl
@[simp] theorem setRedraw_draws (s : State) (b : Bool) : (s.setRedraw b).draws = s.draws := rfl
@[simp] theorem setRedraw_reg (s : State) (b : Bool) (r : Reg) : (s.setRedraw b).reg r = s.reg r := rfl

/-! ### `countDraw` -/

@[simp] theorem countDraw_mem (s : State) : (s.countDraw).mem = s.mem := rfl
@[simp] theorem countDraw_v (s : State) : (s.countDraw).v = s.v := rfl
@[simp] theorem countDraw_i (s : State) : (s.countDraw).i = s.i := rfl
@[simp] theorem countDraw_pc (s : State) : (s.countDraw).pc = s.pc := rfl
@[simp] theorem countDraw_stack (s : State) : (s.countDraw).stack = s.stack := rfl
@[simp] theorem countDraw_sp (s : State) : (s.countDraw).sp = s.sp := rfl
@[simp] theorem countDraw_dt (s : State) : (s.countDraw).dt = s.dt := rfl
@[simp] theorem countDraw_st (s : State) : (s.countDraw).st = s.st := rfl
@[simp] theorem countDraw_keys (s : State) : (s.countDraw).keys = s.keys := rfl
@[simp] theorem countDraw_fb (s : State) : (s.countDraw).fb = s.fb := rfl
@[simp] theorem countDraw_redraw (s : State) : (s.countDraw).redraw = s.redraw := rfl
@[simp] theorem countDraw_draws (s : State) : (s.countDraw).draws = s.draws + 1 := rfl
@[simp] theorem countDraw_reg (s : State) (r : Reg) : (s.countDraw).reg r = s.reg r := rfl

/-! ### `advance` -/

@[simp] theorem advance_mem (s : State) : (s.advance).mem = s.mem := rfl
@[simp] theorem advance_v (s : State) : (s.advance).v = s.v := rfl
@[simp] theorem advance_i (s : State) : (s.advance).i = s.i := rfl
@[simp] theorem advance_pc (s : State) : (s.advance).pc = s.pc + 2 := rfl
@[simp] theorem advance_stack (s : State) : (s.advance).stack = s.stack := rfl
@[simp] theorem advance_sp (s : State) : (s.advance).sp = s.sp := rfl
@[simp] theorem advance_dt (s : State) : (s.advance).dt = s.dt := rfl
@[simp] theorem advance_st (s : State) : (s.advance).st = s.st := rfl
@[simp] theorem advance_keys (s : State) : (s.advance).keys = s.keys := rfl
@[simp] theorem advance_fb (s : State) : (s.advance).fb = s.fb := rfl
@[simp] theorem advance_redraw (s : State) : (s.advance).redraw = s.redraw := rfl
@[simp] theorem advance_draws (s : State) : (s.advance).draws = s.draws := rfl
@[simp] theorem advance_reg (s : State) (r : Reg) : (s.advance).reg r = s.reg r := rfl

/-! ### `skipIf` -/

@[simp] theorem skipIf_mem (s : State) (c : Bool) : (s.skipIf c).mem = s.mem := rfl
@[simp] theorem skipIf_v (s : State) (c : Bool) : (s.skipIf c).v = s.v := rfl
@[simp] theorem skipIf_i (s : State) (c : Bool) : (s.skipIf c).i = s.i := rfl
@[simp] theorem skipIf_pc (s : State) (c : Bool) : (s.skipIf c).pc = if c then s.pc + 4 else s.pc + 2 := rfl
@[simp] theorem skipIf_stack (s : State) (c : Bool) : (s.skipIf c).stack = s.stack := rfl
@[simp] theorem skipIf_sp (s : State) (c : Bool) : (s.skipIf c).sp = s.sp := rfl
@[simp] theorem skipIf_dt (s : State) (c : Bool) : (s.skipIf c).dt = s.dt := rfl
@[simp] theorem skipIf_st (s : State) (c : Bool) : (s.skipIf c).st = s.st := rfl
@[simp] theorem skipIf_keys (s : State) (c : Bool) : (s.skipIf c).keys = s.keys := rfl
@[simp] theorem skipIf_fb (s : State) (c : Bool) : (s.skipIf c).fb = s.fb := rfl
@[simp] theorem skipIf_redraw (s : State) (c : Bool) : (s.skipIf c).redraw = s.redraw := rfl
@[simp] theorem skipIf_draws (s : State) (c : Bool) : (s.skipIf c).draws = s.draws := rfl
@[simp] theorem skipIf_reg (s : State) (c : Bool) (r : Reg) : (s.skipIf c).reg r = s.reg r := rfl

/-! ### `loadRegs` -/

@[simp] theorem loadRegs_mem (s : State) (base : Nat) (x : Reg) : (s.loadRegs base x).mem = s.mem := rfl
@[simp] theorem loadRegs_v (s : State) (base : Nat) (x : Reg) : (s.loadRegs base x).v = Vector.ofFn fun i => if i.val ≤ x.val then s.mem.read (base + i.val) else s.v[i] := rfl
@[simp] theorem loadRegs_i (s : State) (base : Nat) (x : Reg) : (s.loadRegs base x).i = s.i := rfl
@[simp] theorem loadRegs_pc (s : State) (base : Nat) (x : Reg) : (s.loadRegs base x).pc = s.pc := rfl
@[simp] theorem loadRegs_stack (s : State) (base : Nat) (x : Reg) : (s.loadRegs base x).stack = s.stack := rfl
@[simp] theorem loadRegs_sp (s : State) (base : Nat) (x : Reg) : (s.loadRegs base x).sp = s.sp := rfl
@[simp] theorem loadRegs_dt (s : State) (base : Nat) (x : Reg) : (s.loadRegs base x).dt = s.dt := rfl
@[simp] theorem loadRegs_st (s : State) (base : Nat) (x : Reg) : (s.loadRegs base x).st = s.st := rfl
@[simp] theorem loadRegs_keys (s : State) (base : Nat) (x : Reg) : (s.loadRegs base x).keys = s.keys := rfl
@[simp] theorem loadRegs_fb (s : State) (base : Nat) (x : Reg) : (s.loadRegs base x).fb = s.fb := rfl
@[simp] theorem loadRegs_redraw (s : State) (base : Nat) (x : Reg) : (s.loadRegs base x).redraw = s.redraw := rfl
@[simp] theorem loadRegs_draws (s : State) (base : Nat) (x : Reg) : (s.loadRegs base x).draws = s.draws := rfl

/-! ### `setResultAndFlag` -/

@[simp] theorem setResultAndFlag_mem (s : State) (x : Reg) (r f : Byte) : (s.setResultAndFlag x r f).mem = s.mem := rfl
@[simp] theorem setResultAndFlag_v (s : State) (x : Reg) (r f : Byte) : (s.setResultAndFlag x r f).v = (s.v.set x r).set 15 f := rfl
@[simp] theorem setResultAndFlag_i (s : State) (x : Reg) (r f : Byte) : (s.setResultAndFlag x r f).i = s.i := rfl
@[simp] theorem setResultAndFlag_pc (s : State) (x : Reg) (r f : Byte) : (s.setResultAndFlag x r f).pc = s.pc := rfl
@[simp] theorem setResultAndFlag_stack (s : State) (x : Reg) (r f : Byte) : (s.setResultAndFlag x r f).stack = s.stack := rfl
@[simp] theorem setResultAndFlag_sp (s : State) (x : Reg) (r f : Byte) : (s.setResultAndFlag x r f).sp = s.sp := rfl
@[simp] theorem setResultAndFlag_dt (s : State) (x : Reg) (r f : Byte) : (s.setResultAndFlag x r f).dt = s.dt := rfl
@[simp] theorem setResultAndFlag_st (s : State) (x : Reg) (r f : Byte) : (s.setResultAndFlag x r f).st = s.st := rfl
@[simp] theorem setResultAndFlag_keys (s : State) (x : Reg) (r f : Byte) : (s.setResultAndFlag x r f).keys = s.keys := rfl
@[simp] theorem setResultAndFlag_fb (s : State) (x : Reg) (r f : Byte) : (s.setResultAndFlag x r f).fb = s.fb := rfl
@[simp] theorem setResultAndFlag_redraw (s : State) (x : Reg) (r f : Byte) : (s.setResultAndFlag x r f).redraw = s.redraw := rfl
@[simp] theorem setResultAndFlag_draws (s : State) (x : Reg) (r f : Byte) : (s.setResultAndFlag x r f).draws = s.draws := rfl

/-! ### Registers -/

theorem setReg_reg (s : State) (x r : Reg) (b : Byte) : (s.setReg x b).reg r = if r = x then b else s.reg r := by
  simp only [reg, setReg, Fin.getElem_fin, Vector.getElem_set, Fin.ext_iff, eq_comm]

@[simp] theorem setReg_reg_self (s : State) (x : Reg) (b : Byte) : (s.setReg x b).reg x = b := by
  simp [setReg_reg]

theorem setReg_reg_ne (s : State) (b : Byte) (x r : Reg) (h : r ≠ x) : (s.setReg x b).reg r = s.reg r := by
  simp [setReg_reg, h]

@[simp] theorem setResultAndFlag_reg_flag (s : State) (x : Reg) (r f : Byte) :
    (s.setResultAndFlag x r f).reg VF = f := by
  simp [setResultAndFlag]

theorem setResultAndFlag_reg_result (s : State) (x : Reg) (r f : Byte) (h : x ≠ VF) :
    (s.setResultAndFlag x r f).reg x = r := by
  simp [setResultAndFlag, setReg_reg, h]

theorem setResultAndFlag_reg_other (s : State) (x : Reg) (r f : Byte) (q : Reg) (h : q ≠ x) (hf : q ≠ VF) :
    (s.setResultAndFlag x r f).reg q = s.reg q := by
  simp [setResultAndFlag, setReg_reg, h, hf]

/-- What `LD Vx,[I]` leaves in a register (R185). -/
theorem loadRegs_reg (s : State) (base : Nat) (x r : Reg) :
    (s.loadRegs base x).reg r = if r ≤ x then s.mem.read (base + r.val) else s.reg r := by
  simp only [reg, loadRegs_v, Fin.getElem_fin, Vector.getElem_ofFn, Fin.le_def]

end Sys2Proof.Machine.State
end

