-- ==== Sys2Proof/Laws/Operations.lean ====
section
/-! SUPPORT. One lemma per shared operation, saying everything it can do; proofs about instructions cite these and do not unfold the operations. -/

namespace Sys2Proof.Machine

/-! ### The data check (20_memory R66) -/

theorem dataInRange_iff (base count : Nat) : dataInRange base count = true ↔ count = 0 ∨ base + count ≤ 4096 := by
  simp [dataInRange]

theorem guardData_next {s t next : State} {count : Nat} :
    guardData s count next = .next t ↔ (count = 0 ∨ s.i.toNat + count ≤ 4096) ∧ next = t := by
  unfold guardData
  rw [← dataInRange_iff]
  by_cases h : dataInRange s.i.toNat count = true <;> simp [h, raise]

theorem guardData_fault {s next : State} {count : Nat} {f : Fault} :
    guardData s count next = .fault f ↔
      (count ≠ 0 ∧ 4096 < s.i.toNat + count) ∧ f = .outOfBounds .data s.pc s.i := by
  unfold guardData
  have hiff := dataInRange_iff s.i.toNat count
  by_cases h : dataInRange s.i.toNat count = true
  · have := hiff.mp h
    simp only [h, if_true]
    constructor
    · intro h; simp at h
    · rintro ⟨⟨h1, h2⟩, -⟩; omega
  · have := mt hiff.mpr h
    simp only [h, raise]
    constructor
    · intro h; simp at h; exact ⟨by omega, h.symm⟩
    · rintro ⟨-, rfl⟩; simp

theorem guardData_not_refused {s next : State} {count : Nat} {r : Refusal} : guardData s count next ≠ .refused r := by
  unfold guardData
  split <;> simp [raise]

/-! ### The call stack (10_state R29) -/

theorem push_eq_some {s t : State} {w : Word16} :
    s.push w = some t ↔ ∃ h : s.sp.val < 16,
      t = { s with stack := s.stack.set s.sp.val w h, sp := ⟨s.sp.val + 1, by omega⟩ } := by
  unfold State.push
  split
  · rename_i h; simp [h, eq_comm]
  · rename_i h; simp [h]

theorem push_eq_none {s : State} {w : Word16} : s.push w = none ↔ s.sp.val = 16 := by
  unfold State.push
  split
  · rename_i h; simp; omega
  · rename_i h; have := s.sp.isLt; simp; omega

theorem pop_eq_some {s t : State} {w : Word16} :
    s.pop = some (w, t) ↔ ∃ h : 0 < s.sp.val,
      w = s.stack[s.sp.val - 1]'(by omega) ∧ t = { s with sp := ⟨s.sp.val - 1, by omega⟩ } := by
  unfold State.pop
  split
  · rename_i h; simp [h, eq_comm]
  · rename_i h; simp [h]

theorem pop_eq_none {s : State} : s.pop = none ↔ s.sp.val = 0 := by
  unfold State.pop
  split
  · rename_i h; simp; omega
  · rename_i h; simp; omega

/-! ### Keys (42_skips R155, 46_timers_and_keys R201) -/

theorem keyIndex_eq_some {b : Byte} {k : Fin 16} : keyIndex b = some k ↔ b.toNat = k.val := by
  unfold keyIndex
  split
  · simp [Fin.ext_iff]
  · have := k.isLt; simp; omega

theorem keyIndex_eq_none {b : Byte} : keyIndex b = none ↔ 15 < b.toNat := by
  unfold keyIndex
  split <;> simp <;> omega

theorem skipOnKey_next {x : Reg} {pressed : Bool} {s t : State} :
    skipOnKey x pressed s = .next t ↔
      ∃ k : Fin 16, (s.reg x).toNat = k.val ∧ t = s.skipIf (s.keys[k] == pressed) := by
  unfold skipOnKey
  split
  · rename_i h
    have := keyIndex_eq_none.mp h
    constructor
    · intro h; simp [raise] at h
    · rintro ⟨k, hk, -⟩; have := k.isLt; omega
  · rename_i k h
    have hk := keyIndex_eq_some.mp h
    constructor
    · intro h; exact ⟨k, hk, by simpa using h.symm⟩
    · rintro ⟨k', hk', rfl⟩
      have : k = k' := Fin.ext (by omega)
      rw [this]

theorem skipOnKey_fault {x : Reg} {pressed : Bool} {s : State} {f : Fault} :
    skipOnKey x pressed s = .fault f ↔ 15 < (s.reg x).toNat ∧ f = .keyIndexRange s.pc (s.reg x) := by
  unfold skipOnKey
  split
  · rename_i h
    simp [raise, keyIndex_eq_none.mp h, eq_comm]
  · rename_i k h
    have hk := keyIndex_eq_some.mp h
    have := k.isLt
    constructor
    · intro h; simp at h
    · rintro ⟨h, -⟩; omega

theorem skipOnKey_not_refused {x : Reg} {pressed : Bool} {s : State} {r : Refusal} :
    skipOnKey x pressed s ≠ .refused r := by
  unfold skipOnKey
  split <;> simp [raise]

theorem lowestKey_eq_none {s : State} : s.lowestKey = none ↔ ∀ k : Fin 16, s.keys[k] = false := by
  unfold State.lowestKey
  simp [List.find?_eq_none]

/-- The key found is pressed and no key below it is (R201). -/
theorem lowestKey_eq_some {s : State} {k : Fin 16} :
    s.lowestKey = some k ↔ s.keys[k] = true ∧ ∀ j : Fin 16, j < k → s.keys[j] = false := by
  unfold State.lowestKey
  constructor
  · intro h
    obtain ⟨hk, as, bs, hsplit, has⟩ := List.find?_eq_some_iff_append.mp h
    refine ⟨hk, fun j hj => ?_⟩
    have hs : (List.finRange 16).Pairwise (· < ·) := List.pairwise_lt_finRange 16
    have hmem : j ∈ List.finRange 16 := List.mem_finRange j
    rw [hsplit] at hs hmem
    obtain ⟨-, hk', -⟩ := List.pairwise_append.mp hs
    have hkb := (List.pairwise_cons.mp hk').1
    rcases List.mem_append.mp hmem with hj' | hj'
    · simpa using has j hj'
    · rcases List.mem_cons.mp hj' with rfl | hj'
      · exact absurd hj (lt_irrefl _)
      · exact absurd (hkb j hj') (not_lt_of_gt hj)
  · rintro ⟨hk, hlow⟩
    cases hf : (List.finRange 16).find? (fun k => s.keys[k]) with
    | none =>
      have := List.find?_eq_none.mp hf k (List.mem_finRange k)
      exact absurd hk this
    | some j =>
      obtain ⟨hj, as, bs, hsplit, has⟩ := List.find?_eq_some_iff_append.mp hf
      have hs : (List.finRange 16).Pairwise (· < ·) := List.pairwise_lt_finRange 16
      have hmem : k ∈ List.finRange 16 := List.mem_finRange k
      rw [hsplit] at hs hmem
      obtain ⟨-, hk', -⟩ := List.pairwise_append.mp hs
      have hjb := (List.pairwise_cons.mp hk').1
      rcases List.mem_append.mp hmem with hk'' | hk''
      · have := has k hk''; simp [hk] at this
      · rcases List.mem_cons.mp hk'' with rfl | hk''
        · rfl
        · have := hlow j (hjb k hk''); simp [hj] at this

theorem keyByte_toNat (k : Fin 16) : (keyByte k).toNat = k.val := by
  have := k.isLt
  simp [keyByte]; omega

/-! ### Operands -/

theorem addrOperand_toNat (nnn : BitVec 12) : (addrOperand nnn).toNat = nnn.toNat := by
  have := nnn.isLt
  simp [addrOperand]; omega

theorem zext16_toNat (b : Byte) : (zext16 b).toNat = b.toNat := by
  have := b.isLt
  simp [zext16]; omega

/-- `nnn + V0` does not wrap (41_control_flow R143). -/
theorem addrOperand_add_zext16_toNat (nnn : BitVec 12) (b : Byte) :
    (addrOperand nnn + zext16 b).toNat = nnn.toNat + b.toNat := by
  have := nnn.isLt
  have := b.isLt
  rw [BitVec.toNat_add, addrOperand_toNat, zext16_toNat]; omega

/-- `FONT_BASE + 5 * V[x]` does not wrap (44_index_and_memory R182). -/
theorem glyphAddress_toNat (b : Byte) : (glyphAddress b).toNat = 0x050 + 5 * b.toNat := by
  have := b.isLt
  simp [glyphAddress, fontBase, Config.glyphBytes]; omega

theorem regsUpTo_length (s : State) (x : Reg) : (s.regsUpTo x).length = x.val + 1 := by
  simp [State.regsUpTo]

theorem regsUpTo_getD (s : State) (x r : Reg) (h : r ≤ x) : (s.regsUpTo x).getD r.val 0 = s.reg r := by
  have : r.val < x.val + 1 := Nat.lt_succ_of_le h
  simp [State.regsUpTo, State.reg, this]

theorem decimalDigits_length (b : Byte) : (decimalDigits b).length = 3 := rfl

/-- The digits are decimal digits and give the byte back (44_index_and_memory R183). -/
theorem decimalDigits_value (b : Byte) :
    ∃ h t o : Byte, decimalDigits b = [h, t, o] ∧ h.toNat ≤ 2 ∧ t.toNat ≤ 9 ∧ o.toNat ≤ 9 ∧
      100 * h.toNat + 10 * t.toNat + o.toNat = b.toNat := by
  have := b.isLt
  refine ⟨_, _, _, rfl, ?_, ?_, ?_, ?_⟩ <;> simp <;> omega

/-! ### Timers (47_host_operations R211) -/

theorem countDown_toNat (b : Byte) : (countDown b).toNat = b.toNat - 1 := by
  have := b.isLt
  unfold countDown
  split
  · omega
  · simp [BitVec.toNat_sub]; omega

/-! ### The step (40_step_and_dispatch R120) -/

theorem fetchable_iff (s : State) : s.fetchable = true ↔ s.pc.toNat < 0xFFF := by
  simp only [State.fetchable, decide_eq_true_eq, Config.memSize]
  omega

/-- Everything `step` can do: fault at the fetch, run the decoded instruction, or advance over an unknown opcode. -/
theorem step_cases (s : State) :
    (0xFFF ≤ s.pc.toNat ∧ step s = .fault (.outOfBounds .fetch s.pc s.pc)) ∨
    (s.pc.toNat < 0xFFF ∧ ∃ i, decodeWord s.fetchWord = .instr i ∧ step s = exec i s) ∨
    (s.pc.toNat < 0xFFF ∧ ∃ op, decodeWord s.fetchWord = .unknown op ∧ step s = .next s.advance) := by
  have hf := fetchable_iff s
  unfold step cycle
  by_cases h : s.fetchable = true
  · rw [if_pos h]
    cases hd : decodeWord s.fetchWord with
    | instr i =>
      refine .inr (.inl ⟨hf.mp h, i, rfl, ?_⟩)
      cases he : exec i s <;> simp [he, CycleOutcome.ofResult, CycleOutcome.toResult]
    | unknown op => exact .inr (.inr ⟨hf.mp h, op, rfl, rfl⟩)
  · rw [if_neg h]
    have := mt hf.mpr h
    exact .inl ⟨by omega, rfl⟩

end Sys2Proof.Machine
end

