-- ==== Sys2Proof/Laws/Instructions.lean ====
section
/-! SUPPORT. Everything each branching meaning can do; the meanings not named here are one equation each, true by rfl. -/

namespace Sys2Proof.Machine

open Sys2Proof.Safety

/-! ### Call and return (41_control_flow R140, R142) -/

theorem execRet_next {s t : State} :
    execRet s = .next t ↔ ∃ h : 0 < s.sp.val,
      t = { s with sp := ⟨s.sp.val - 1, by omega⟩, pc := s.stack[s.sp.val - 1]'(by omega) } := by
  unfold execRet
  split
  · rename_i h
    have := pop_eq_none.mp h
    constructor
    · intro h; cases h
    · rintro ⟨h, -⟩; omega
  · rename_i w s' hp
    obtain ⟨h, rfl, rfl⟩ := pop_eq_some.mp hp
    exact ⟨fun h' => ⟨h, (Host.Outcome.next.inj h').symm⟩, fun ⟨_, ht⟩ => congrArg _ ht.symm⟩

theorem execRet_fault {s : State} {f : Fault} :
    execRet s = .fault f ↔ s.sp.val = 0 ∧ f = .stackUnderflow s.pc := by
  unfold execRet
  split
  · rename_i h
    simp only [raise, Host.Outcome.fault.injEq]
    exact ⟨fun h' => ⟨pop_eq_none.mp h, h'.symm⟩, fun h' => h'.2.symm⟩
  · rename_i w s' h
    obtain ⟨h, -⟩ := pop_eq_some.mp h
    constructor
    · intro h; cases h
    · rintro ⟨h, -⟩; omega

theorem execCallNnn_next {nnn : BitVec 12} {s t : State} :
    execCallNnn nnn s = .next t ↔ ∃ h : s.sp.val < 16,
      t = { s with
        stack := s.stack.set s.sp.val (s.pc + 2) h, sp := ⟨s.sp.val + 1, by omega⟩, pc := addrOperand nnn } := by
  unfold execCallNnn
  split
  · rename_i h
    have := push_eq_none.mp h
    constructor
    · intro h; cases h
    · rintro ⟨h, -⟩; omega
  · rename_i s' hp
    obtain ⟨h, rfl⟩ := push_eq_some.mp hp
    exact ⟨fun h' => ⟨h, (Host.Outcome.next.inj h').symm⟩, fun ⟨_, ht⟩ => congrArg _ ht.symm⟩

theorem execCallNnn_fault {nnn : BitVec 12} {s : State} {f : Fault} :
    execCallNnn nnn s = .fault f ↔ s.sp.val = 16 ∧ f = .stackOverflow s.pc := by
  unfold execCallNnn
  split
  · rename_i h
    simp only [raise, Host.Outcome.fault.injEq]
    exact ⟨fun h' => ⟨push_eq_none.mp h, h'.symm⟩, fun h' => h'.2.symm⟩
  · rename_i s' h
    obtain ⟨h, -⟩ := push_eq_some.mp h
    constructor
    · intro h; cases h
    · rintro ⟨h, -⟩; omega

/-! ### The key wait (46_timers_and_keys R201) -/

theorem execLdVxK_next {x : Reg} {s t : State} :
    execLdVxK x s = .next t ↔
      (∃ k, s.lowestKey = some k ∧ t = (s.setReg x (keyByte k)).advance) ∨ (s.lowestKey = none ∧ t = s) := by
  unfold execLdVxK
  split
  · rename_i k h
    simp [h, eq_comm]
  · rename_i h
    simp [h, eq_comm]

theorem execLdVxK_not_fault {x : Reg} {s : State} {f : Fault} : execLdVxK x s ≠ .fault f := by
  unfold execLdVxK
  split <;> simp

/-! ### The stores (44_index_and_memory R183, R184) -/

theorem storesTo_eq_true {i : Instr} {s : State} {a : Nat} :
    storesTo i s a = true ↔ s.i.toNat ≤ a ∧ a < s.i.toNat + storedBytes i := by
  simp only [storesTo, Bool.and_eq_true, decide_eq_true_eq]

theorem storesTo_eq_false {i : Instr} {s : State} {a : Nat} :
    storesTo i s a = false ↔ a < s.i.toNat ∨ s.i.toNat + storedBytes i ≤ a := by
  simp only [storesTo, Bool.and_eq_false_iff, decide_eq_false_iff_not, not_le, not_lt]

/-- What `LD B,Vx` leaves at an address. -/
theorem read_ldBVx {x : Reg} {s : State} (hw : s.mem.wf) (hr : s.i.toNat + 3 ≤ 4096) (a : Nat) :
    (s.mem.writeBytes s.i.toNat (decimalDigits (s.reg x))).read a = byteAfter (.ldBVx x) s a := by
  rw [Memory.read_writeBytes hw (by rw [decimalDigits_length]; exact hr), decimalDigits_length]
  unfold byteAfter
  by_cases h : s.i.toNat ≤ a ∧ a < s.i.toNat + 3
  · rw [if_pos h, if_pos (storesTo_eq_true.mpr h)]
    obtain h | h | h : a = s.i.toNat ∨ a = s.i.toNat + 1 ∨ a = s.i.toNat + 2 := by omega
    all_goals subst h; simp [storedByte, decimalDigits]
  · rw [if_neg h, if_neg]
    rw [Bool.not_eq_true, storesTo_eq_false]
    show _ ∨ _ + 3 ≤ _
    omega

/-- What `LD [I],Vx` leaves at an address. -/
theorem read_ldMemVx {x : Reg} {s : State} (hw : s.mem.wf) (hr : s.i.toNat + (x.val + 1) ≤ 4096) (a : Nat) :
    (s.mem.writeBytes s.i.toNat (s.regsUpTo x)).read a = byteAfter (.ldMemVx x) s a := by
  rw [Memory.read_writeBytes hw (by rw [regsUpTo_length]; exact hr), regsUpTo_length]
  unfold byteAfter
  by_cases h : s.i.toNat ≤ a ∧ a < s.i.toNat + (x.val + 1)
  · rw [if_pos h, if_pos (storesTo_eq_true.mpr h)]
    have hx := x.isLt
    have hk : (Fin.ofNat 16 (a - s.i.toNat)).val = a - s.i.toNat := Nat.mod_eq_of_lt (by omega)
    rw [← hk, regsUpTo_getD s x _ (by rw [Fin.le_def, hk]; omega)]
    rfl
  · rw [if_neg h, if_neg]
    rw [Bool.not_eq_true, storesTo_eq_false]
    show _ ∨ _ + (x.val + 1) ≤ _
    omega

/-! ### The draw (45_display R191) -/

/-- The sprite's bits as `DRW` reads them from memory. -/
theorem spriteBit_readBytes (s : State) (x y : Reg) (n : BitVec 4) (r c : Nat) :
    spriteBit (s.mem.readBytes s.i.toNat n.toNat) (startRow (s.reg y)) (startColumn (s.reg x)) r c =
      drawnBit s x y n r c := by
  show spriteBit _ ((s.reg y).toNat % 32) ((s.reg x).toNat % 64) r c = _
  simp only [spriteBit, drawnBit, Memory.readBytes_length]
  by_cases hr : (s.reg y).toNat % 32 ≤ r ∧ r < (s.reg y).toNat % 32 + n.toNat
  · rw [Memory.readBytes_getD _ _ _ _ (by show r - (s.reg y).toNat % 32 < n.toNat; omega)]
  · have : (decide ((s.reg y).toNat % 32 ≤ r) && decide (r < (s.reg y).toNat % 32 + n.toNat)) = false := by
      simpa using hr
    rw [this]; simp

theorem drawResult_pixel (s : State) (x y : Reg) (n : BitVec 4) {r c : Nat} (hr : r < 32) (hc : c < 64) :
    (drawResult s x y n).1.pixel r c = (s.fb.pixel r c ^^ drawnBit s x y n r c) := by
  rw [← spriteBit_readBytes]; exact blit_pixel _ _ _ _ r c hr hc

theorem drawResult_collision (s : State) (x y : Reg) (n : BitVec 4) :
    (drawResult s x y n).2 = true ↔
      ∃ r c, r < 32 ∧ c < 64 ∧ drawnBit s x y n r c = true ∧ s.fb.pixel r c = true := by
  simp only [← spriteBit_readBytes]; exact blit_collision _ _ _ _

theorem flagByte_eq_one {b : Bool} : flagByte b = 1 ↔ b = true := by cases b <;> decide

theorem flagByte_eq_zero {b : Bool} : flagByte b = 0 ↔ b = false := by cases b <;> decide

theorem flagByte_zero_or_one (b : Bool) : flagByte b = 0 ∨ flagByte b = 1 := by cases b <;> decide

end Sys2Proof.Machine
end

