-- ==== Sys2Proof/Laws/Run.lean ====
section
/-! SUPPORT. Everything an operation of a run can do to the state of CORE (47_host_operations R210 to R216). -/

namespace Sys2Proof.Machine

theorem cycle_toResult (s : State) : (cycle s).toResult = step s := rfl

theorem loadProgram_eq_some {bytes : List Byte} {s t : State} :
    loadProgram bytes s = some t ↔ bytes.length ≤ 3584 ∧ t = s.setMem (s.mem.writeBytes 0x200 bytes) := by
  unfold loadProgram
  by_cases h : imageFits bytes = true
  · rw [if_pos h, Option.some.injEq]
    exact ⟨fun e => ⟨of_decide_eq_true h, e.symm⟩, fun e => e.2.symm⟩
  · rw [if_neg h]
    exact ⟨fun e => (nomatch e), fun e => absurd (decide_eq_true e.1) h⟩

theorem setKey_eq_some {k : Nat} {b : Bool} {s t : State} :
    setKey k b s = some t ↔ ∃ h : k < 16, t = s.putKey ⟨k, h⟩ b := by
  unfold setKey
  by_cases h : keyIndexFits k = true
  · rw [dif_pos h, Option.some.injEq]
    exact ⟨fun e => ⟨of_decide_eq_true h, e.symm⟩, fun ⟨_, e⟩ => e.symm⟩
  · rw [dif_neg h]
    exact ⟨fun e => (nomatch e), fun ⟨e, _⟩ => absurd (decide_eq_true e) h⟩

/-- A step of a run: the next state of `step`, or the same state after a fault (R226). -/
theorem Session.doStep_core {σ σ' : Session} {r : Reply} (h : σ.doStep = .ok σ' r) :
    step σ.core = .next σ'.core ∨ ∃ f, step σ.core = .fault f ∧ σ'.core = σ.core := by
  unfold Session.doStep at h
  rw [← cycle_toResult]
  split at h
  · rename_i s hs; cases h; exact .inl (by rw [hs]; rfl)
  · rename_i s op hs; cases h; exact .inl (by rw [hs]; rfl)
  · rename_i f hs; cases h; exact .inr ⟨f, by rw [hs]; rfl, rfl⟩
  · cases h

/-- Everything an operation that has a transition can do to the state of CORE. -/
theorem Session.apply_core {σ σ' : Session} {o : Op} {r : Reply} (h : σ.apply o = .ok σ' r) :
    σ'.core = σ.core ∨ step σ.core = .next σ'.core ∨ σ'.core = tickTimers σ.core ∨
    (∃ bytes, loadProgram bytes σ.core = some σ'.core) ∨ (∃ k b, setKey k b σ.core = some σ'.core) ∨
    σ'.core = (takeRedraw σ.core).2 := by
  have h : σ.perform o = .ok σ' r := by
    unfold Session.apply at h
    split at h
    · cases h
    · exact h
  cases o with
  | step =>
    rcases Session.doStep_core h with h | ⟨_, _, h⟩
    · exact .inr (.inl h)
    · exact .inl h
  | tickTimers => cases h; exact .inr (.inr (.inl rfl))
  | loadProgram bytes =>
    simp only [Session.perform, Session.doLoad] at h
    split at h
    · split at h
      · rename_i hl; cases h; exact .inr (.inr (.inr (.inl ⟨bytes, hl⟩)))
      · cases h; exact .inl rfl
    · cases h
  | setKey k b =>
    simp only [Session.perform, Session.doSetKey] at h
    split at h
    · rename_i hk; cases h; exact .inr (.inr (.inr (.inr (.inl ⟨k, b, hk⟩))))
    · cases h
  | getFramebuffer => cases h; exact .inl rfl
  | takeRedraw => cases h; exact .inr (.inr (.inr (.inr (.inr rfl))))

end Sys2Proof.Machine
end

