-- ==== Sys2Proof/Tests/Slice0.lean ====
section
/-! SUPPORT. Tests of one step each, with the results of spec/95_test_vectors.md, and a witness for the hypotheses of each obligation. -/

open Sys2Proof Sys2Proof.Machine Sys2Proof.Safety

namespace Sys2Proof.Tests

set_option maxRecDepth 100000

/-! ### Helpers -/

/-- The reset state with registers set. -/
def regs (vs : List (Reg × Byte)) : State := vs.foldl (fun s p => s.setReg p.1 p.2) State.reset

/-- The reset state with `I`, registers and the bytes at `I` set. -/
def mems (i : Nat) (bytes : List Byte) (vs : List (Reg × Byte)) : State :=
  ((regs vs).setI (BitVec.ofNat 16 i)).setMem (State.reset.mem.writeBytes i bytes)

/-- The reset state with the keys of a list pressed and registers set. -/
def pressed (ks : List (Fin 16)) (vs : List (Reg × Byte)) : State := ks.foldl (fun s k => s.putKey k true) (regs vs)

/-- The reset state with `pc` and a stack of `depth` slots, all holding `slot`. -/
def stacked (pc : Word16) (depth : Fin 17) (slot : Word16) : State :=
  { State.reset with pc := pc, sp := depth, stack := Vector.replicate 16 slot }

/-- One step of the opcode `op` in `s` ends in a next state with the property. -/
def runs (op : Nat) (s : State) (p : State → Bool) : Bool :=
  match step (s.withFetchWord 16 op) with
  | .next t => p t
  | .fault _ => false
  | .refused _ => false

/-- One step of the opcode `op` in `s` ends in the fault. -/
def faults (op : Nat) (s : State) (f : Fault) : Bool :=
  match step (s.withFetchWord 16 op) with
  | .next _ => false
  | .fault g => decide (g = f)
  | .refused _ => false

/-- An outcome is a next state. -/
def isNext : Result → Bool
  | .next _ => true
  | .fault _ => false
  | .refused _ => false

theorem exists_next {r : Result} (h : isNext r = true) : ∃ t, r = .next t := by
  cases r with
  | next t => exact ⟨t, rfl⟩
  | fault f => cases h
  | refused r => cases h

/-- An outcome is the fault. -/
def isFault (f : Fault) : Result → Bool
  | .next _ => false
  | .fault g => decide (g = f)
  | .refused _ => false

theorem eq_fault {r : Result} {f : Fault} (h : isFault f r = true) : r = .fault f := by
  cases r with
  | next t => cases h
  | fault g => exact congrArg _ (of_decide_eq_true h)
  | refused r => cases h

/-- The pixels set, row by row. -/
def lit (fb : Framebuffer) (r : Nat) : List Nat := (List.range 64).filter fun c => fb.pixel r c

/-! ### Decoding: words written out from the encodings of spec/opcode_table.json -/

theorem test_decode_fixed : decodeWord 0b0000000011100000 = .instr .cls ∧ decodeWord 0b0000000011101110 = .instr .ret := by decide

theorem test_decode_addresses :
    decodeWord 0b0001101010111100 = .instr (.jpNnn 0xABC) ∧ decodeWord 0b0010001000010000 = .instr (.callNnn 0x210) ∧
    decodeWord 0b1010111111111111 = .instr (.ldINnn 0xFFF) ∧ decodeWord 0b1011001000000001 = .instr (.jpV0Nnn 0x201) := by decide

theorem test_decode_constants :
    decodeWord 0b0011000111111110 = .instr (.seVxKk 1 0xFE) ∧ decodeWord 0b0100111000000111 = .instr (.sneVxKk 14 7) ∧
    decodeWord 0b0110101000000010 = .instr (.ldVxKk 10 2) ∧ decodeWord 0b0111000111111111 = .instr (.addVxKk 1 0xFF) ∧
    decodeWord 0b1100111111110000 = .instr (.rndVxKk 15 0xF0) := by decide

theorem test_decode_alu :
    decodeWord 0b1000000100100000 = .instr (.ldVxVy 1 2) ∧ decodeWord 0b1000001000010001 = .instr (.orVxVy 2 1) ∧
    decodeWord 0b1000000100100010 = .instr (.andVxVy 1 2) ∧ decodeWord 0b1000000100100011 = .instr (.xorVxVy 1 2) ∧
    decodeWord 0b1000111100010100 = .instr (.addVxVy 15 1) ∧ decodeWord 0b1000000100100101 = .instr (.subVxVy 1 2) ∧
    decodeWord 0b1000000100000110 = .instr (.shrVx 1) ∧ decodeWord 0b1000000100100111 = .instr (.subnVxVy 1 2) ∧
    decodeWord 0b1000000100001110 = .instr (.shlVx 1) := by decide

theorem test_decode_pairs_and_draw :
    decodeWord 0b0101000100100000 = .instr (.seVxVy 1 2) ∧ decodeWord 0b1001001000010000 = .instr (.sneVxVy 2 1) ∧
    decodeWord 0b1101000100101111 = .instr (.drwVxVyN 1 2 15) := by decide

theorem test_decode_keys :
    decodeWord 0b1110010010011110 = .instr (.skpVx 4) ∧ decodeWord 0b1110010010100001 = .instr (.sknpVx 4) := by decide

theorem test_decode_family_F :
    decodeWord 0b1111001100000111 = .instr (.ldVxDt 3) ∧ decodeWord 0b1111010100001010 = .instr (.ldVxK 5) ∧
    decodeWord 0b1111000000010101 = .instr (.ldDtVx 0) ∧ decodeWord 0b1111000100011000 = .instr (.ldStVx 1) ∧
    decodeWord 0b1111001000011110 = .instr (.addIVx 2) ∧ decodeWord 0b1111000000101001 = .instr (.ldFVx 0) ∧
    decodeWord 0b1111000000110011 = .instr (.ldBVx 0) ∧ decodeWord 0b1111111101010101 = .instr (.ldMemVx 15) ∧
    decodeWord 0b1111001001100101 = .instr (.ldVxMem 2) := by decide

/-- The ignored bits (T-S12, T-S16, T-A29, T-A39). -/
theorem test_decode_ignored_bits :
    decodeWord 0x512F = .instr (.seVxVy 1 2) ∧ decodeWord 0x9125 = .instr (.sneVxVy 1 2) ∧
    decodeWord 0x8126 = .instr (.shrVx 1) ∧ decodeWord 0x812E = .instr (.shlVx 1) := by decide

/-- Words of no row (T-A42, T-A43, T-S25, T-K6, T-K7, and the machine call `0nnn`, which is no instruction here). -/
theorem test_decode_unknown :
    decodeWord 0x8128 = .unknown 0x8128 ∧ decodeWord 0x812F = .unknown 0x812F ∧ decodeWord 0xE49F = .unknown 0xE49F ∧
    decodeWord 0xF50B = .unknown 0xF50B ∧ decodeWord 0xF500 = .unknown 0xF500 ∧ decodeWord 0x0000 = .unknown 0x0000 ∧
    decodeWord 0x01E0 = .unknown 0x01E0 := by decide

/-- The byte order of an instruction: the high byte first (R63). -/
theorem test_decode_bytes :
    decode [0x6A, 0x02, 0x12] = .instr (.ldVxKk 10 2) [0x12] ∧ decode [0xE4, 0x9F] = .unknownOpcode 0xE49F [] ∧
    decode [0x12] = .truncated ∧ decodeTableWord 16 0x6A02 = some (.ldVxKk 10 2) ∧ decodeTableWord 16 0x8128 = none := by
  decide

/-! ### What the well-formedness checks refuse -/

/-- T-H5, T-H6. -/
theorem test_wellformed_image : imageFits (List.replicate 3584 0xAB) = true ∧ imageFits (List.replicate 3585 0xAB) = false := by
  simp [imageFits]

theorem test_wellformed_key : keyIndexFits 15 = true ∧ keyIndexFits 16 = false := by decide

/-! ### Control flow and fetch (T-C) -/

theorem test_ret : runs 0x00EE (stacked 0x212 1 0x206) (fun t => t.pc == 0x206 && t.sp == 0) = true := by decide

theorem test_ret_underflow : faults 0x00EE State.reset (.stackUnderflow 0x200) = true := by decide

theorem test_jp : runs 0x1ABC State.reset (fun t => t.pc == 0xABC) = true := by decide

theorem test_call :
    runs 0x2210 (stacked 0x204 15 0) (fun t => t.pc == 0x210 && t.sp == 16 && t.stack[15] == 0x206 && t.stack[14] == 0) = true := by
  decide

theorem test_call_overflow : faults 0x2210 (stacked 0x204 16 0) (.stackOverflow 0x204) = true := by decide

theorem test_jp_v0 : runs 0xBFFF (regs [(0, 0xFF)]) (fun t => t.pc == 0x10FE) = true := by decide

theorem test_fetch_last_word : runs 0x6005 (State.reset.setPc 0xFFE) (fun t => t.pc == 0x1000 && t.reg 0 == 5) = true := by decide

theorem test_fetch_fault : faults 0x6000 (State.reset.setPc 0xFFF) (.outOfBounds .fetch 0xFFF 0xFFF) = true := by decide

theorem test_odd_pc : runs 0x6105 (State.reset.setPc 0x301) (fun t => t.pc == 0x303 && t.reg 1 == 5) = true := by decide

/-- T-S25 with its report. -/
theorem test_unknown_reported :
    (match cycle ((regs [(4, 0x20)]).withFetchWord 16 0xE49F) with
      | .nextWithReport t op => t.pc == 0x202 && op == 0xE49F
      | _ => false) = true := by decide

/-! ### Skips (T-S) -/

theorem test_se_kk : runs 0x33FF (regs [(3, 0xFF)]) (fun t => t.pc == 0x204) = true ∧
    runs 0x33FF State.reset (fun t => t.pc == 0x202) = true := by decide

theorem test_sne_kk : runs 0x43FF (regs [(3, 0xFF)]) (fun t => t.pc == 0x202) = true ∧
    runs 0x43FF State.reset (fun t => t.pc == 0x204) = true := by decide

theorem test_se_vy : runs 0x512F (regs [(1, 7), (2, 7)]) (fun t => t.pc == 0x204) = true ∧
    runs 0x5120 (regs [(2, 0xFF)]) (fun t => t.pc == 0x202) = true := by decide

theorem test_sne_vy : runs 0x9125 (regs [(1, 7), (2, 8)]) (fun t => t.pc == 0x204) = true ∧
    runs 0x9110 (regs [(1, 0x33)]) (fun t => t.pc == 0x202) = true := by decide

theorem test_skp : runs 0xE49E (pressed [15] [(4, 15)]) (fun t => t.pc == 0x204) = true ∧
    faults 0xE49E (pressed [0] [(4, 16)]) (.keyIndexRange 0x200 16) = true := by decide

theorem test_sknp : runs 0xE4A1 (pressed [10] [(4, 10)]) (fun t => t.pc == 0x202) = true ∧
    faults 0xE4A1 (regs [(4, 0xFF)]) (.keyIndexRange 0x200 0xFF) = true := by decide

/-! ### Loads, ALU, RND (T-A) -/

theorem test_ld_kk : runs 0x6A02 State.reset (fun t => t.pc == 0x202 && t.reg 10 == 2) = true := by decide

theorem test_add_kk : runs 0x7F01 (regs [(15, 0xFF)]) (fun t => t.reg 15 == 0) = true ∧
    runs 0x7102 (regs [(1, 0xFF)]) (fun t => t.reg 1 == 1 && t.reg 15 == 0) = true := by decide

theorem test_ld_vy : runs 0x8F20 (regs [(2, 0x5A)]) (fun t => t.reg 15 == 0x5A) = true := by decide

theorem test_or : runs 0x8121 (regs [(1, 0xF0), (2, 0x3C), (15, 1)]) (fun t => t.reg 1 == 0xFC && t.reg 15 == 1) = true := by decide

theorem test_and : runs 0x8122 (regs [(1, 0xF0), (2, 0x3C), (15, 1)]) (fun t => t.reg 1 == 0x30 && t.reg 15 == 1) = true := by decide

theorem test_xor : runs 0x8123 (regs [(1, 0xF0), (2, 0x3C), (15, 1)]) (fun t => t.reg 1 == 0xCC && t.reg 15 == 1) = true := by decide

theorem test_add : runs 0x8124 (regs [(1, 0xFE), (2, 1), (15, 1)]) (fun t => t.reg 1 == 0xFF && t.reg 15 == 0) = true ∧
    runs 0x81F4 (regs [(1, 0xFF), (15, 1)]) (fun t => t.reg 1 == 0 && t.reg 15 == 1) = true := by decide

theorem test_add_into_flag : runs 0x8F14 (regs [(1, 0x20), (15, 0xF0)]) (fun t => t.reg 15 == 1) = true := by decide

theorem test_sub : runs 0x8125 (regs [(1, 5), (2, 7), (15, 1)]) (fun t => t.reg 1 == 0xFE && t.reg 15 == 0) = true ∧
    runs 0x8125 (regs [(1, 5), (2, 5), (15, 1)]) (fun t => t.reg 1 == 0 && t.reg 15 == 0) = true := by decide

theorem test_sub_into_flag : runs 0x8F15 (regs [(1, 3), (15, 9)]) (fun t => t.reg 15 == 1) = true := by decide

theorem test_shr : runs 0x8126 (regs [(1, 0xFF)]) (fun t => t.reg 1 == 0x7F && t.reg 15 == 1) = true ∧
    runs 0x8F06 (regs [(15, 5)]) (fun t => t.reg 15 == 1) = true := by decide

theorem test_subn : runs 0x8127 (regs [(1, 5), (2, 7)]) (fun t => t.reg 1 == 2 && t.reg 15 == 1) = true ∧
    runs 0x8F27 (regs [(2, 10), (15, 2)]) (fun t => t.reg 15 == 1) = true := by decide

theorem test_shl : runs 0x810E (regs [(1, 0x7F), (15, 1)]) (fun t => t.reg 1 == 0xFE && t.reg 15 == 0) = true ∧
    runs 0x812E (regs [(1, 0x80), (2, 1)]) (fun t => t.reg 1 == 0 && t.reg 15 == 1) = true := by decide

/-- T-A44: with the draw 0xA7 the mask 0x0F leaves 0x07. -/
theorem test_rnd (h : Config.draw 0 = 0xA7) : ∃ t, exec (.rndVxKk 3 0x0F) State.reset = .next t ∧ t.reg 3 = 0x07 := by
  refine ⟨_, rfl, ?_⟩
  have : (Config.draw 0 &&& 0x0F#8) = 0x07#8 := by rw [h]; decide
  simp only [State.advance, State.setPc_reg, State.countDraw_reg, State.setReg_reg_self]
  exact this

/-! ### Index register and memory (T-M) -/

theorem test_ld_i : runs 0xAFFF (mems 0x1234 [] []) (fun t => t.i == 0xFFF) = true := by decide

theorem test_add_i : runs 0xF21E (mems 0xFF80 [] [(2, 0xFF)]) (fun t => t.i == 0x7F && t.reg 15 == 0) = true ∧
    runs 0xF21E (mems 0xFFF [] [(2, 1)]) (fun t => t.i == 0x1000) = true := by decide

theorem test_ld_f : runs 0xF029 (regs [(0, 0xFF)]) (fun t => t.i == 0x54B) = true ∧
    runs 0xF029 (regs [(0, 10)]) (fun t => t.i == 0x82) = true := by decide

theorem test_ld_b : runs 0xF033 (mems 0x300 [0xAA, 0xAA, 0xAA, 0xAA] [(0, 0xFE)]) (fun t => t.mem.readBytes 0x300 4 == [2, 5, 4, 0xAA]) = true ∧
    faults 0xF033 (mems 0xFFE [] [(0, 0x64)]) (.outOfBounds .data 0x200 0xFFE) = true := by decide

theorem test_store : runs 0xF255 (mems 0x400 [] [(0, 0x11), (1, 0x22), (2, 0x33), (3, 0x44)])
      (fun t => t.mem.readBytes 0x400 4 == [0x11, 0x22, 0x33, 0] && t.i == 0x400) = true ∧
    faults 0xF155 (mems 0xFFF [] [(0, 1), (1, 2)]) (.outOfBounds .data 0x200 0xFFF) = true := by decide

theorem test_load : runs 0xF265 (mems 0x300 [2, 5, 4, 9] [(3, 0x99)])
      (fun t => t.reg 0 == 2 && t.reg 1 == 5 && t.reg 2 == 4 && t.reg 3 == 0x99 && t.i == 0x300) = true ∧
    runs 0xF065 (mems 0x50 [] []) (fun t => t.reg 0 == 0xF0) = true := by decide

/-! ### Display (T-D) -/

theorem test_cls :
    runs 0x00E0 ((regs [(15, 1)]).setFb (Framebuffer.clear.setPixel 5 5 true)) (fun t => lit t.fb 5 == [] && t.reg 15 == 1 && !t.redraw) = true := by
  decide

/-- T-D10: bit order, collision, and a set pixel under a 0 bit. -/
theorem test_drw : runs 0xD011 ((mems 0x300 [0xA5] [(0, 2), (1, 1)]).setFb ((Framebuffer.clear.setPixel 1 2 true).setPixel 1 3 true))
    (fun t => lit t.fb 1 == [3, 4, 7, 9] && t.reg 15 == 1 && t.redraw && t.pc == 0x202) = true := by decide

/-- T-D3, T-D5: the right and the bottom edge clip. -/
theorem test_drw_edges : runs 0xD011 (mems 0x300 [0xFF] [(0, 60)]) (fun t => lit t.fb 0 == [60, 61, 62, 63] && lit t.fb 1 == []) = true ∧
    runs 0xD013 (mems 0x300 [0x80, 0x80, 0x80] [(1, 31)]) (fun t => lit t.fb 31 == [0] && lit t.fb 0 == [] && lit t.fb 1 == []) = true := by
  decide

/-- T-D7, T-D8: no row reads no memory; a row past 4095 faults. -/
theorem test_drw_bounds : runs 0xD010 ({ regs [(15, 1)] with i := 0xFFFF }) (fun t => t.reg 15 == 0 && t.redraw) = true ∧
    faults 0xD012 (mems 0xFFF [] []) (.outOfBounds .data 0x200 0xFFF) = true := by decide

/-- T-D12: the old VF is both coordinates. -/
theorem test_drw_flag_operand : runs 0xDFF1 (mems 0x300 [0x80] [(15, 3)]) (fun t => lit t.fb 3 == [3] && t.reg 15 == 0) = true := by decide

/-! ### Timers, keys and the environment (T-T, T-K, T-H) -/

theorem test_ld_vx_dt : runs 0xF307 (State.reset.setDt 0x1E) (fun t => t.reg 3 == 0x1E && t.dt == 0x1E) = true := by decide

theorem test_ld_dt : runs 0xF015 (regs [(0, 3)]) (fun t => t.dt == 3 && t.st == 0) = true := by decide

theorem test_ld_st : runs 0xF118 (regs [(1, 0x10)]) (fun t => t.st == 0x10 && t.dt == 0) = true := by decide

theorem test_ld_k : runs 0xF50A State.reset (fun t => t.pc == 0x200 && t.reg 5 == 0) = true ∧
    runs 0xF50A (pressed [7, 3] []) (fun t => t.pc == 0x202 && t.reg 5 == 3) = true := by decide

/-- T-H2. -/
theorem test_ticks : (tickTimers ((State.reset.setDt 0).setSt 3)).dt = 0 ∧ (tickTimers ((State.reset.setDt 0).setSt 3)).st = 2 := by
  decide

theorem test_set_key : (setKey 10 true State.reset).map (fun s => (s.keys[10], s.keys[9])) = some (true, false) := by decide

/-- T-H10. -/
theorem test_take_redraw : (takeRedraw (State.reset.setRedraw true)).1 = true ∧ (takeRedraw (State.reset.setRedraw true)).2.redraw = false := by
  decide

/-- T-H12: the wide form. -/
theorem test_wide_pixel : widePixel true = 0xFFFFFFFF ∧ widePixel false = 0 ∧ pixelIndex 1 3 = 67 := by decide

/-- P1 from reset, as a schedule: a load, then two steps. -/
theorem test_schedule :
    (match Session.start.run [.loadProgram [0x6A, 0x02, 0x12, 0x00], .step, .step] with
      | .ok σ => decide (σ.phase = .running) && σ.core.pc == 0x200 && σ.core.reg 10 == 2
      | .error _ => false) = true := by decide

/-- A second load has no transition (R210). -/
theorem test_second_load : (match Session.start.run [.loadProgram [], .loadProgram []] with
      | .ok _ => false
      | .error r => decide (r = .loadMidRun)) = true := by decide

/-! ### Witnesses: a state and operands that meet the hypotheses of each obligation, clause by clause -/

theorem witness_EncodeOfDecodeIsTheWordButForIgnoredBits : decodeWord 0x512F = .instr (.seVxVy 1 2) := by decide

theorem witness_DecodeFollowsTheOpcodeMap : decodeWord 0x8ABE = .instr (.shlVx 10) ∧ decodeWord 0x8AB8 = .unknown 0x8AB8 := by decide

theorem witness_OpcodeMapRowsDoNotOverlap :
    ∃ (i j : Instr) (op : Word16), i.matches op ∧ j.matches op :=
  ⟨.seVxVy 1 2, .seVxVy 3 4, 0x5120, by unfold Instr.matches; decide, by unfold Instr.matches; decide⟩

theorem witness_StepRunsTheDecodedInstruction : ∃ (s : State) (i : Instr), s.pc.toNat + 1 < 4096 ∧
    decode [s.mem.read s.pc.toNat, s.mem.read (s.pc.toNat + 1)] = .instr i [] :=
  ⟨(State.reset.setPc 0xFFE).withFetchWord 16 0x6005, .ldVxKk 0 5, by decide, by decide⟩

theorem witness_FetchFaultsExactlyBeyondMemory :
    step (State.reset.setPc 0xFFF) = .fault (.outOfBounds .fetch 0xFFF 0xFFF) ∧ isNext (step (State.reset.setPc 0xFFE)) = true :=
  ⟨eq_fault (by decide), by decide⟩

theorem witness_UnknownOpcodeIsAReportedNoOp : ∃ (s : State) (op : Word16), s.pc.toNat + 1 < 4096 ∧ decodeWord s.fetchWord = .unknown op :=
  ⟨(State.reset.setPc 0xFFE).withFetchWord 16 0xE49F, 0xE49F, by decide, by decide⟩

theorem witness_NextPcIsTheTablesEntry :
    (∃ (i : Instr) (s t : State), s.pc.toNat + 1 < 4096 ∧ exec i s = .next t) ∧
    (∃ (s t : State) (op : Word16), decodeWord s.fetchWord = .unknown op ∧ step s = .next t) :=
  ⟨⟨.seVxKk 0 0, State.reset.setPc 0xFFE, _, by decide, rfl⟩,
    ⟨State.reset.withFetchWord 16 0xE49F, _, 0xE49F, by decide, (exists_next (by decide)).choose_spec⟩⟩

theorem witness_EveryInstructionRunsUnlessItsFaultConditionHolds :
    faultOf (.drwVxVyN 0 0 2) (State.reset.setI 0xFFF) = some (.outOfBounds .data 0x200 0xFFF) ∧
    faultOf (.drwVxVyN 0 0 1) (State.reset.setI 0xFFF) = none := by decide

theorem witness_StepDoesNotTickSampleOrHalt :
    (∃ s t : State, step s = .next t) ∧ ∃ s : State, Settled s :=
  ⟨⟨State.reset.withFetchWord 16 0xF015, exists_next (by decide)⟩,
    ⟨State.reset.withFetchWord 16 0x1200, by decide, 0x200, by decide, by decide⟩⟩

theorem witness_CallPushesTheReturnAddress :
    (∃ s : State, s.pc.toNat + 1 < 4096 ∧ s.sp.val < 16) ∧ (∃ s : State, s.pc.toNat + 1 < 4096 ∧ s.sp.val = 16) :=
  ⟨⟨stacked 0xFFE 15 0, by decide⟩, ⟨stacked 0xFFE 16 0, by decide⟩⟩

theorem witness_ReturnPopsIntoPc : (∃ s : State, 0 < s.sp.val) ∧ (∃ s : State, s.sp.val = 0) :=
  ⟨⟨stacked 0x200 1 0x206, by decide⟩, ⟨State.reset, rfl⟩⟩

theorem witness_CallThenReturnComesBack : ∃ (s : State) (nnn : BitVec 12), s.sp.val < 16 ∧ s.pc.toNat ≤ 0xFFC ∧ nnn.toNat ≤ 0xFFE ∧
    decodeWord s.fetchWord = .instr (.callNnn nnn) ∧ s.mem.read nnn.toNat = 0x00 ∧ s.mem.read (nnn.toNat + 1) = 0xEE :=
  ⟨((stacked 0xFFC 15 0).withFetchWord 16 0x2FFE).setMem
      (((stacked 0xFFC 15 0).withFetchWord 16 0x2FFE).mem.writeBytes 0xFFE [0x00, 0xEE]), 0xFFE, by decide⟩

theorem witness_RegisterSkipsCompareTwoRegisters :
    (0x512F#16).extractLsb' 12 4 = 0x5 ∧ (0x9125#16).extractLsb' 12 4 = 0x9 := by decide

theorem witness_KeySkipsTestTheSelectedKey :
    (∃ (x : Reg) (s : State) (k : Fin 16), (s.reg x).toNat = k.val) ∧ (∃ (x : Reg) (s : State), 15 < (s.reg x).toNat) :=
  ⟨⟨4, regs [(4, 15)], 15, by decide⟩, ⟨4, regs [(4, 16)], by decide⟩⟩

theorem witness_DecimalDigitsAreStored :
    (∃ s : State, s.mem.wf ∧ s.i.toNat + 2 ≤ 4095) ∧ (∃ s : State, s.mem.wf ∧ 4095 < s.i.toNat + 2) :=
  ⟨⟨State.reset.setI 0xFFD, by decide⟩, ⟨State.reset.setI 0xFFE, by decide⟩⟩

theorem witness_BlockStoreWritesTheRegisterRange :
    (∃ (x : Reg) (s : State), s.mem.wf ∧ s.i.toNat + x.val ≤ 4095) ∧ (∃ (x : Reg) (s : State), s.mem.wf ∧ 4095 < s.i.toNat + x.val) :=
  ⟨⟨15, State.reset.setI 0xFF0, by decide⟩, ⟨15, State.reset.setI 0xFF1, by decide⟩⟩

theorem witness_BlockLoadReadsTheRegisterRange :
    (∃ (x : Reg) (s : State), s.i.toNat + x.val ≤ 4095) ∧ (∃ (x : Reg) (s : State), 4095 < s.i.toNat + x.val) :=
  ⟨⟨0, State.reset.setI 0xFFF, by decide⟩, ⟨0, State.reset.setI 0x1000, by decide⟩⟩

theorem witness_BlockStoreThenLoadRestoresRegisters : ∃ (x : Reg) (s t u : State), s.mem.wf ∧ exec (.ldMemVx x) s = .next t ∧ u.i = t.i ∧
    ∀ r : Reg, r ≤ x → u.mem.read (s.i.toNat + r.val) = t.mem.read (s.i.toNat + r.val) := by
  obtain ⟨t, ht⟩ := exists_next (r := exec (.ldMemVx 15) (mems 0xFF0 [] [(0, 1), (15, 2)])) (by decide)
  exact ⟨15, _, t, t, by decide, ht, rfl, fun _ _ => rfl⟩

/-- Both bytes of the next instruction stored by `LD [I],Vx`; its high byte alone, by `x = 0`; its low byte alone, by `LD B,Vx` from its second byte; and an instruction that stores nothing. -/
theorem witness_StoreIsSeenByTheNextFetch :
    (∃ s t : State, s.mem.wf ∧ exec (.ldMemVx 1) s = .next t ∧ s.i.toNat = s.pc.toNat + 2) ∧
    (∃ s t : State, s.mem.wf ∧ exec (.ldMemVx 0) s = .next t ∧ s.i.toNat = s.pc.toNat + 2) ∧
    (∃ s t : State, s.mem.wf ∧ exec (.ldBVx 0) s = .next t ∧ s.i.toNat = s.pc.toNat + 3) ∧
    (∃ s t : State, s.mem.wf ∧ exec (.jpNnn 0xFFE) s = .next t) := by
  obtain ⟨t, ht⟩ := exists_next (r := exec (.ldMemVx 1) (mems 0x202 [] [(0, 0x12), (1, 0x34)])) (by decide)
  obtain ⟨u, hu⟩ := exists_next (r := exec (.ldMemVx 0) (mems 0x202 [] [(0, 0x12)])) (by decide)
  obtain ⟨w, hw⟩ := exists_next (r := exec (.ldBVx 0) (mems 0x203 [] [(0, 0xFE)])) (by decide)
  exact ⟨⟨_, t, by decide, ht, by decide⟩, ⟨_, u, by decide, hu, by decide⟩, ⟨_, w, by decide, hw, by decide⟩,
    ⟨State.reset, _, by decide, rfl⟩⟩

theorem witness_DrawXorsTheClippedSprite :
    (∃ (n : BitVec 4) (s : State), n.toNat = 0 ∧ 4095 < s.i.toNat) ∧
    (∃ (n : BitVec 4) (s : State), 0 < n.toNat ∧ s.i.toNat + n.toNat - 1 ≤ 4095) ∧
    (∃ (n : BitVec 4) (s : State), 0 < n.toNat ∧ 4095 < s.i.toNat + n.toNat - 1) :=
  ⟨⟨0, State.reset.setI 0xFFFF, by decide⟩, ⟨1, State.reset.setI 0xFFF, by decide⟩, ⟨2, State.reset.setI 0xFFF, by decide⟩⟩

theorem witness_DrawingTwiceRestoresTheScreen : ∃ (x y : Reg) (n : BitVec 4) (s t u : State), exec (.drwVxVyN x y n) s = .next t ∧
    u.fb = t.fb ∧ u.i = s.i ∧ u.reg x = s.reg x ∧ u.reg y = s.reg y ∧
    ∀ k, k < n.toNat → u.mem.read (s.i.toNat + k) = s.mem.read (s.i.toNat + k) := by
  obtain ⟨t, ht⟩ := exists_next (r := exec (.drwVxVyN 0 1 1) (mems 0x300 [0xFF] [(0, 60)])) (by decide)
  exact ⟨0, 1, 1, _, t, (mems 0x300 [0xFF] [(0, 60)]).setFb t.fb, ht, rfl, rfl, rfl, rfl, fun _ _ => rfl⟩

theorem witness_DrawStaysInItsRectangle : ∃ (x y : Reg) (n : BitVec 4) (s t : State), exec (.drwVxVyN x y n) s = .next t ∧
    ∀ r c, s.fb.pixel r c = false := by
  obtain ⟨t, ht⟩ := exists_next (r := exec (.drwVxVyN 0 1 1) (mems 0x300 [0xFF] [(0, 60)])) (by decide)
  exact ⟨0, 1, 1, _, t, ht, Framebuffer.pixel_clear⟩

theorem witness_KeyWaitTakesTheLeastKeyOrWaits :
    (∃ (s : State) (k : Fin 16), s.keys[k] = true ∧ ∀ j : Fin 16, j < k → s.keys[j] = false) ∧
    (∃ s : State, ∀ k : Fin 16, s.keys[k] = false) :=
  ⟨⟨pressed [3, 15] [], 3, by decide⟩, ⟨State.reset, by decide⟩⟩

theorem witness_LoadPlacesTheImageVerbatim : State.reset.mem.wf ∧ (List.replicate 3584 (0 : Byte)).length ≤ 3584 ∧
    3584 < (List.replicate 3585 (0 : Byte)).length := by
  rw [List.length_replicate, List.length_replicate]
  decide

theorem witness_HostSettersTouchOneFlag : (∃ k : Nat, k < 16) ∧ (∃ k : Nat, 15 < k) := ⟨⟨15, by decide⟩, ⟨16, by decide⟩⟩

theorem witness_FrameOfRegisterInstructions : ∃ (i : Instr) (s t : State) (r : Reg), writesRegisters i = true ∧ exec i s = .next t ∧
    destination i r = false ∧ writesFlag i = true ∧ r ≠ VF :=
  ⟨.addVxVy 1 2, State.reset, _, 3, by decide, rfl, by decide, by decide, by decide⟩

/-- A slot other than the one at `SP` under `CALL`; the slot at `SP` and the stack pointer under an instruction that is neither `CALL` nor `RET`; a slot under `RET`. -/
theorem witness_FrameOfControlTransfers :
    (∃ (i : Instr) (s t : State) (k : Fin 16), transfersControl i = true ∧ exec i s = .next t ∧ k.val ≠ s.sp.val) ∧
    (∃ (i : Instr) (s t : State) (k : Fin 16), transfersControl i = true ∧ exec i s = .next t ∧ k.val = s.sp.val ∧
      (∀ nnn, i ≠ .callNnn nnn) ∧ i ≠ .ret) ∧
    (∃ (s t : State) (k : Fin 16), exec .ret s = .next t ∧ k.val = s.sp.val ∧ ∀ nnn, Instr.ret ≠ .callNnn nnn) := by
  obtain ⟨t, ht⟩ := exists_next (r := exec (.callNnn 0x210) (stacked 0x204 15 0)) (by decide)
  obtain ⟨u, hu⟩ := exists_next (r := exec (.skpVx 4) (pressed [15] [(4, 15)])) (by decide)
  obtain ⟨w, hw⟩ := exists_next (r := exec .ret (stacked 0x204 15 0)) (by decide)
  exact ⟨⟨_, _, t, 14, by decide, ht, by decide⟩,
    ⟨_, _, u, 0, by decide, hu, by decide, fun _ h => (nomatch h), fun h => (nomatch h)⟩,
    ⟨_, w, 15, hw, by decide, fun _ h => (nomatch h)⟩⟩

theorem witness_FrameOfIndexAndTimerWrites : ∃ (x : Reg) (nnn : BitVec 12) (s t u w : State),
    exec (.ldINnn nnn) s = .next t ∧ exec (.ldDtVx x) s = .next u ∧ exec (.ldStVx x) s = .next w :=
  ⟨1, 0xFFF, State.reset, _, _, _, rfl, rfl, rfl⟩

theorem witness_FrameOfStores : ∃ (x : Reg) (s t u : State) (a : Nat), exec (.ldBVx x) s = .next t ∧ exec (.ldMemVx x) s = .next u ∧
    storesTo (.ldBVx x) s a = false ∧ storesTo (.ldMemVx x) s a = false := by
  obtain ⟨t, ht⟩ := exists_next (r := exec (.ldBVx 2) (mems 0xFFD [] [(2, 0xFF)])) (by decide)
  obtain ⟨u, hu⟩ := exists_next (r := exec (.ldMemVx 2) (mems 0xFFD [] [(2, 0xFF)])) (by decide)
  exact ⟨2, _, t, u, 0xFFC, ht, hu, by decide, by decide⟩

theorem witness_FrameOfDisplayInstructions : ∃ (x y : Reg) (n : BitVec 4) (s t u : State),
    exec .cls s = .next t ∧ exec (.drwVxVyN x y n) s = .next u := by
  obtain ⟨u, hu⟩ := exists_next (r := exec (.drwVxVyN 0 1 15) (mems 0xFF1 [] [(0, 60)])) (by decide)
  exact ⟨0, 1, 15, _, _, u, rfl, hu⟩

theorem witness_FlagIsWrittenOnlyByTheFlagWriters :
    (∃ (i : Instr) (s t : State), exec i s = .next t ∧ writesFlag i = true) ∧
    (∃ (i : Instr) (s t : State), exec i s = .next t ∧ writesFlag i = false ∧ destination i VF = false) :=
  ⟨⟨.shlVx 15, State.reset, _, rfl, by decide⟩, ⟨.addVxKk 14 1, State.reset, _, rfl, by decide, by decide⟩⟩

theorem witness_FlagIsReadOnlyByName :
    (∃ (i : Instr) (s t : State), namesRegister i VF = false ∧ exec i s = .next t) ∧
    (∃ (i : Instr) (s : State) (f : Fault), namesRegister i VF = false ∧ exec i s = .fault f) :=
  ⟨⟨.addVxVy 14 13, State.reset, _, by decide, rfl⟩,
    ⟨.ldMemVx 14, State.reset.setI 0xFFF, .outOfBounds .data 0x200 0xFFF, by decide, eq_fault (by decide)⟩⟩

theorem witness_OnlyStoresChangeMemoryAndOnlyRandomDraws :
    ∃ (i : Instr) (s t : State) (a : Nat), exec i s = .next t ∧ storesTo i s a = false := by
  obtain ⟨t, ht⟩ := exists_next (r := exec (.ldMemVx 2) (mems 0xFFD [] [(2, 0xFF)])) (by decide)
  exact ⟨_, _, t, 0xFFC, ht, by decide⟩

theorem witness_TimersKeysAndRedrawAreReadOnlyByTheirReaders :
    (∃ (i : Instr) (s t : State) (dt : Byte) (keys : Vector Bool 16), (readsKeys i = true → keys = s.keys) ∧
      (readsDelay i = true → dt = s.dt) ∧ dt ≠ s.dt ∧ exec i s = .next t) ∧
    (∃ (i : Instr) (s : State) (f : Fault) (dt : Byte) (keys : Vector Bool 16), (readsKeys i = true → keys = s.keys) ∧
      (readsDelay i = true → dt = s.dt) ∧ keys ≠ s.keys ∧ exec i s = .fault f) :=
  ⟨⟨.ldVxK 1, State.reset, _, 7, State.reset.keys, by decide, by decide, by decide, (exists_next (by decide)).choose_spec⟩,
    ⟨.ret, State.reset, .stackUnderflow 0x200, 7, Vector.replicate 16 true, by decide, by decide, by decide, eq_fault (by decide)⟩⟩

theorem witness_StaleStackSlotsAreUnobservable :
    (∃ (i : Instr) (s t : State) (stack : Vector Word16 16), (∀ k : Fin 16, k.val < s.sp.val → stack[k] = s.stack[k]) ∧
      stack ≠ s.stack ∧ exec i s = .next t) ∧
    (∃ (i : Instr) (s : State) (f : Fault) (stack : Vector Word16 16), (∀ k : Fin 16, k.val < s.sp.val → stack[k] = s.stack[k]) ∧
      stack ≠ s.stack ∧ exec i s = .fault f) := by
  obtain ⟨t, ht⟩ := exists_next (r := exec .ret (stacked 0x200 1 0x206)) (by decide)
  exact ⟨⟨.ret, _, t, (Vector.replicate 16 0x206).set 1 0x300, by decide, by decide, ht⟩,
    ⟨.ret, State.reset, .stackUnderflow 0x200, Vector.replicate 16 1, by decide, by decide, eq_fault (by decide)⟩⟩

theorem witness_FirstFetchIsTheImagesFirstWord :
    ∃ (hi lo : Byte) (rest : List Byte) (s : State), loadProgram (hi :: lo :: rest) State.reset = some s :=
  ⟨0x6A, 0x02, [0x12, 0x00], _, rfl⟩

theorem witness_EveryStepKeepsTheInvariant : ∃ s t : State, Inv s ∧ step s = .next t := by
  obtain ⟨t, ht⟩ := exists_next (r := step ((stacked 0xFFE 15 0x1000).withFetchWord 16 0x2210)) (by decide)
  exact ⟨_, t, ⟨by decide, by decide, by decide⟩, ht⟩

/-- An operation has a transition. -/
def isOk : OpOutcome → Bool
  | .ok _ _ => true
  | .refused _ => false

theorem exists_ok {o : OpOutcome} (h : isOk o = true) : ∃ σ r, o = .ok σ r := by
  cases o with
  | ok σ r => exact ⟨σ, r, rfl⟩
  | refused r => cases h

/-- Each operation has a transition from a session that meets the invariant; the step also after a load, and at a fault. -/
theorem witness_EveryOperationKeepsTheInvariant :
    Inv Session.start.core ∧
    (∀ o ∈ [Op.step, .tickTimers, .loadProgram [0x6A, 0x02, 0x12, 0x00], .setKey 15 true, .getFramebuffer, .takeRedraw],
      ∃ σ r, Session.start.apply o = .ok σ r) ∧
    (∃ (a b : Session) (r : Reply), Inv a.core ∧ a.apply .step = .ok b r ∧ ∃ f, b.phase = .ended f) := by
  refine ⟨⟨by decide, by decide, by decide⟩, fun o ho => exists_ok ?_,
    ⟨⟨.running, State.reset.setPc 0x1000⟩, _, _, ⟨by decide, by decide, by decide⟩, rfl, _, rfl⟩⟩
  simp only [List.mem_cons, List.not_mem_nil, or_false] at ho
  rcases ho with rfl | rfl | rfl | rfl | rfl | rfl <;> decide

theorem reachable_of_run {σ σ' : Session} {ops : List Op} (hσ : Reachable σ) (h : σ.run ops = .ok σ') : Reachable σ' := by
  induction ops generalizing σ with
  | nil => cases h; exact hσ
  | cons o ops ih =>
    simp only [Session.run] at h
    split at h
    · rename_i τ r ho; exact ih (.op o r hσ ho) h
    · cases h

/-- P1 loaded, one step of it, a tick and a key press: a run that is not of empty memory. -/
theorem witness_EveryReachableRunMeetsTheInvariant :
    ∃ σ : Session, Reachable σ ∧ σ.phase = .running ∧ σ.core.reg 10 = 2 ∧ σ.core.mem.read 0x200 = 0x6A := by
  have h : (match Session.start.run [.loadProgram [0x6A, 0x02, 0x12, 0x00], .step, .tickTimers, .setKey 3 true] with
      | .ok σ => decide (σ.phase = .running ∧ σ.core.reg 10 = 2 ∧ σ.core.mem.read 0x200 = 0x6A)
      | .error _ => false) = true := by decide
  split at h
  · rename_i σ hr; exact ⟨σ, reachable_of_run .start hr, of_decide_eq_true h⟩
  · cases h

theorem witness_FaultsEndTheRunAndLoadsComeFirst :
    (∃ (σ : Session) (f : Fault), (∀ g, σ.phase ≠ .ended g) ∧ step σ.core = .fault f) ∧
    (∃ (σ : Session) (f : Fault), σ.phase = .ended f) ∧ (∃ σ : Session, σ.phase = .running ∨ σ.phase = .loaded) :=
  ⟨⟨⟨.running, State.reset.setPc 0x1000⟩, .outOfBounds .fetch 0x1000 0x1000, fun g h => (nomatch h), eq_fault (by decide)⟩,
    ⟨⟨.ended (.stackUnderflow 0x200), State.reset⟩, _, rfl⟩, ⟨⟨.loaded, State.reset⟩, .inr rfl⟩⟩

end Sys2Proof.Tests
end

/-! ## Proofs: the next `pc` (10_state R26) -/

section
/-! How each shape of instruction leaves `pc`, as an unbounded number, and the next-`pc` table assembled from the shapes.
At a `pc` whose word can be fetched neither `pc0 + 2` nor `pc0 + 4` wraps. -/

namespace Sys2Proof.Machine

open Sys2Proof.Safety

/-! ### `pc` past the instruction and past the next one -/

theorem pc_add_two_toNat {s : State} (hpc : s.pc.toNat + 1 < 4096) : (s.pc + 2).toNat = s.pc.toNat + 2 := by
  bv_omega

/-- A skip ends at `pc0 + 4` or `pc0 + 2` (42_skips R150). -/
theorem skipIf_pc_toNat {s : State} (hpc : s.pc.toNat + 1 < 4096) (c : Bool) :
    (s.skipIf c).pc.toNat = if c then s.pc.toNat + 4 else s.pc.toNat + 2 := by
  cases c
  · exact pc_add_two_toNat hpc
  · show (s.pc + 4).toNat = s.pc.toNat + 4
    bv_omega

/-! ### Instructions that fall through -/

/-- An instruction that neither transfers control nor waits for a key leaves `pc` just past itself. -/
theorem exec_pc_of_not_transfersControl {i : Instr} {s t : State} (hi : transfersControl i = false)
    (hk : ∀ x, i ≠ .ldVxK x) (h : exec i s = .next t) : t.pc = s.pc + 2 := by
  cases i with
  | ret | jpNnn | callNnn | jpV0Nnn | seVxKk | sneVxKk | seVxVy | sneVxVy | skpVx | sknpVx => cases hi
  | ldVxK x => exact absurd rfl (hk x)
  | drwVxVyN | ldBVx | ldMemVx | ldVxMem =>
    obtain ⟨-, rfl⟩ := guardData_next.mp h
    rfl
  | _ => cases h; rfl

/-! ### Return, key skips and the key wait -/

/-- A completed `RET` ends at the slot below `SP` (41_control_flow R140). -/
theorem execRet_pc {s t : State} (h : execRet s = .next t) : t.pc = s.stack.toList.getD (s.sp.val - 1) 0 := by
  obtain ⟨hsp, rfl⟩ := execRet_next.mp h
  have hlt : s.sp.val - 1 < 16 := by omega
  simp [hlt]

/-- A completed key skip ends as the level of the selected key says (42_skips R155, R156). -/
theorem skipOnKey_pc_toNat {x : Reg} {pressed : Bool} {s t : State} (hpc : s.pc.toNat + 1 < 4096)
    (h : skipOnKey x pressed s = .next t) :
    t.pc.toNat = if s.keys.toList.getD (s.reg x).toNat false = pressed then s.pc.toNat + 4 else s.pc.toNat + 2 := by
  obtain ⟨k, hk, rfl⟩ := skipOnKey_next.mp h
  rw [skipIf_pc_toNat hpc]
  simp [hk]

/-- `LD Vx,K` advances iff a key is pressed (46_timers_and_keys R201). -/
theorem execLdVxK_pc {x : Reg} {s t : State} (h : execLdVxK x s = .next t) :
    t.pc = if ∃ k : Fin 16, s.keys[k] = true then s.pc + 2 else s.pc := by
  obtain ⟨k, hk, rfl⟩ | ⟨hnone, rfl⟩ := execLdVxK_next.mp h
  · obtain ⟨hpressed, -⟩ := lowestKey_eq_some.mp hk
    rw [if_pos ⟨k, hpressed⟩]
    rfl
  · have hidle := lowestKey_eq_none.mp hnone
    rw [if_neg (fun ⟨k, hpressed⟩ => Bool.false_ne_true ((hidle k).symm.trans hpressed))]

/-! ### The table -/

theorem exec_pc_toNat {i : Instr} {s t : State} (hpc : s.pc.toNat + 1 < 4096) (h : exec i s = .next t) :
    t.pc.toNat = nextPc i s := by
  cases i with
  | ret => exact congrArg BitVec.toNat (execRet_pc h)
  | jpNnn nnn => cases h; exact addrOperand_toNat nnn
  | callNnn nnn =>
    obtain ⟨-, rfl⟩ := execCallNnn_next.mp h
    exact addrOperand_toNat nnn
  | jpV0Nnn nnn => cases h; exact addrOperand_add_zext16_toNat nnn (s.reg V0)
  | seVxKk | sneVxKk | seVxVy | sneVxVy =>
    cases h
    rw [skipIf_pc_toNat hpc]
    simp [nextPc]
  | skpVx x => exact skipOnKey_pc_toNat hpc h
  | sknpVx x =>
    rw [skipOnKey_pc_toNat hpc h]
    simp only [← Bool.not_eq_true, ite_not]
    rfl
  | ldVxK x =>
    rw [execLdVxK_pc h, apply_ite BitVec.toNat, pc_add_two_toNat hpc]
    rfl
  | _ =>
    rw [exec_pc_of_not_transfersControl rfl (by simp) h]
    exact pc_add_two_toNat hpc

/-- A step that completes over an unknown opcode ends at `pc0 + 2` (40_step_and_dispatch R124). -/
theorem step_pc_toNat_of_unknown {s t : State} {op : Word16} (hop : decodeWord s.fetchWord = .unknown op)
    (h : step s = .next t) : t.pc.toNat = s.pc.toNat + 2 := by
  obtain ⟨-, hf⟩ | ⟨-, i, hi, -⟩ | ⟨hpc, _, -, hu⟩ := step_cases s
  · rw [hf] at h; cases h
  · rw [hi] at hop; cases hop
  · rw [hu] at h
    cases h
    exact pc_add_two_toNat (by omega)

/-- Settles O9: a case per shape of instruction, and the unknown opcode by the cases of a step. -/
theorem nextPcIsTheTablesEntry : Obligations.NextPcIsTheTablesEntry := by
  unfold Obligations.NextPcIsTheTablesEntry
  exact ⟨fun _ _ _ => exec_pc_toNat, fun _ _ _ => step_pc_toNat_of_unknown⟩

end Sys2Proof.Machine
end

/-! ## Proofs: the fetch fault (20_memory R67) -/

section
/-! Only the fetch raises a fault of kind `fetch`: an instruction's fault is of the stack, of a key index, or of kind `data`. -/

namespace Sys2Proof.Machine

/-- An out-of-bounds access of an instruction is a data access (60_exceptions R239). -/
theorem exec_ne_fetch_fault {i : Instr} {s : State} {p a : Word16} :
    exec i s ≠ .fault (.outOfBounds .fetch p a) := by
  intro h
  cases i with
  | ret =>
    obtain ⟨-, hf⟩ := execRet_fault.mp h
    cases hf
  | callNnn =>
    obtain ⟨-, hf⟩ := execCallNnn_fault.mp h
    cases hf
  | skpVx | sknpVx =>
    obtain ⟨-, hf⟩ := skipOnKey_fault.mp h
    cases hf
  | drwVxVyN | ldBVx | ldMemVx | ldVxMem =>
    obtain ⟨-, hf⟩ := guardData_fault.mp h
    cases hf
  | ldVxK => exact execLdVxK_not_fault h
  | _ => cases h

/-- A step ends in a fetch fault iff the second byte at `pc` does not exist, and the fault then carries `pc` twice (40_step_and_dispatch R121). -/
theorem step_eq_fetch_fault_iff {s : State} {p a : Word16} :
    step s = .fault (.outOfBounds .fetch p a) ↔ 4096 ≤ s.pc.toNat + 1 ∧ p = s.pc ∧ a = s.pc := by
  obtain ⟨hpc, hf⟩ | ⟨hpc, i, -, hi⟩ | ⟨hpc, op, -, hu⟩ := step_cases s
  · rw [hf]
    constructor
    · intro h
      cases h
      exact ⟨by omega, rfl, rfl⟩
    · rintro ⟨-, rfl, rfl⟩
      rfl
  · rw [hi]
    exact ⟨fun h => absurd h exec_ne_fetch_fault, fun ⟨h, _⟩ => by omega⟩
  · rw [hu]
    exact ⟨fun h => (nomatch h), fun ⟨h, _⟩ => by omega⟩

/-- Settles O7: both clauses are the one equivalence for a fetch fault of a step. -/
theorem fetchFaultsExactlyBeyondMemory : Obligations.FetchFaultsExactlyBeyondMemory := by
  unfold Obligations.FetchFaultsExactlyBeyondMemory
  refine fun s => ⟨step_eq_fetch_fault_iff.trans (and_iff_left ⟨rfl, rfl⟩), fun p a h => ?_⟩
  obtain ⟨hpc, -⟩ := step_eq_fetch_fault_iff.mp h
  exact hpc

end Sys2Proof.Machine
end

/-! ## Proofs: the jump (41_control_flow R141) -/

section
/-! `JP nnn` writes its zero-extended operand to `pc`, so the target is below 4096 whatever the state. -/

namespace Sys2Proof.Machine

/-- The whole effect of `JP nnn`: no condition, and no field other than `pc` (R141). -/
theorem exec_jpNnn (nnn : BitVec 12) (s : State) : exec (.jpNnn nnn) s = .next (s.setPc (addrOperand nnn)) := rfl

/-- Settles O13: the next state is `s.setPc` of the operand, and zero extension keeps the operand's number. -/
theorem jumpSetsPc : Obligations.JumpSetsPc := by
  unfold Obligations.JumpSetsPc
  exact fun nnn s => ⟨s.setPc (addrOperand nnn), exec_jpNnn nnn s, addrOperand_toNat nnn, rfl⟩

end Sys2Proof.Machine
end

/-! ## Proofs: the skips (42_skips R151, R152) -/

section
/-! A skip on the equality of two bytes compares the numbers they hold, so its target is stated on those numbers. -/

namespace Sys2Proof.Machine

/-! ### Skips that compare two bytes -/

/-- Two bytes are equal as words iff they are equal as numbers, so this is the skip taken when they are equal. -/
theorem skipIf_beq (s : State) (a b : Byte) :
    s.skipIf (a == b) = s.setPc (if a.toNat = b.toNat then s.pc + 4 else s.pc + 2) := by
  simp only [State.skipIf, beq_iff_eq, BitVec.toNat_inj]

/-- The skip taken when the bytes differ exchanges the two targets of `skipIf_beq`. -/
theorem skipIf_bne (s : State) (a b : Byte) :
    s.skipIf (a != b) = s.setPc (if a.toNat = b.toNat then s.pc + 2 else s.pc + 4) := by
  simp only [State.skipIf, bne_iff_ne, ne_eq, ite_not, BitVec.toNat_inj]

/-! ### Skips on a constant -/

/-- `SE Vx,kk` never faults, and its whole effect is one skip (R151). -/
theorem exec_seVxKk (x : Reg) (kk : Byte) (s : State) :
    exec (.seVxKk x kk) s = .next (s.skipIf (s.reg x == kk)) := rfl

/-- `SNE Vx,kk` never faults, and its whole effect is one skip (R152). -/
theorem exec_sneVxKk (x : Reg) (kk : Byte) (s : State) :
    exec (.sneVxKk x kk) s = .next (s.skipIf (s.reg x != kk)) := rfl

/-- Settles O18: each instruction is one skip, on the equality of `V[x]` and `kk` or on its negation. -/
theorem constantSkipsCompareARegister : Obligations.ConstantSkipsCompareARegister := by
  unfold Obligations.ConstantSkipsCompareARegister
  intro x kk s
  constructor
  · rw [exec_seVxKk, skipIf_beq]
    rfl
  · rw [exec_sneVxKk, skipIf_bne]
    rfl

end Sys2Proof.Machine
end

/-! ## Proofs: the loads and sums of a constant (43_load_alu R160, R161) -/

section
/-! `LD Vx,kk` and `ADD Vx,kk` write one register and advance, so the frame is proved once for that shape and each instruction adds the byte it writes. -/

namespace Sys2Proof.Machine

open Sys2Proof.Safety

/-! ### Writing one register and advancing -/

/-- The register written may be VF: like any other it then holds just the byte written (R160, R161). -/
theorem registerEffect_setReg_advance (s : State) (x : Reg) (b : Byte) :
    RegisterEffect s (s.setReg x b).advance x b where
  result := by rw [State.advance_reg, State.setReg_reg_self]
  otherRegisters r hr := by rw [State.advance_reg, State.setReg_reg_ne s b x r hr]
  pc := by rw [State.advance_pc, State.setReg_pc]
  rest := rfl

/-! ### A constant operand -/

/-- `LD Vx,kk` never faults, and its whole effect is to write `kk` and advance (R160). -/
theorem exec_ldVxKk (x : Reg) (kk : Byte) (s : State) :
    exec (.ldVxKk x kk) s = .next (s.setReg x kk).advance := rfl

/-- `ADD Vx,kk` never faults, and its whole effect is to write the 8-bit sum and advance (R161). -/
theorem exec_addVxKk (x : Reg) (kk : Byte) (s : State) :
    exec (.addVxKk x kk) s = .next (s.setReg x (s.reg x + kk)).advance := rfl

/-- Settles O21: the byte written is the constant itself. -/
theorem loadConstantSetsTheRegister : Obligations.LoadConstantSetsTheRegister := by
  unfold Obligations.LoadConstantSetsTheRegister
  intro x kk s
  exact ⟨_, exec_ldVxKk x kk s, registerEffect_setReg_advance s x kk⟩

/-- Settles O22: the byte written is the sum of two bytes, which as a number wraps at 256. -/
theorem addConstantWrapsWithoutFlag : Obligations.AddConstantWrapsWithoutFlag := by
  unfold Obligations.AddConstantWrapsWithoutFlag
  intro x kk s
  have hsum : (s.reg x + kk).toNat = ((s.reg x).toNat + kk.toNat) % 256 := BitVec.toNat_add _ _
  exact ⟨_, s.reg x + kk, exec_addVxKk x kk s, registerEffect_setReg_advance s x (s.reg x + kk), hsum⟩

end Sys2Proof.Machine
end

/-! ## Proofs: the load of a constant into the index (44_index_and_memory R180) -/

section
/-! `LD I,nnn` writes its zero-extended operand to `I` and advances, with no condition on the operand or the state. -/

namespace Sys2Proof.Machine

/-- `LD I,nnn` never faults, not even for a reserved address, and its whole effect is to write `I` and advance (R180). -/
theorem exec_ldINnn (nnn : BitVec 12) (s : State) :
    exec (.ldINnn nnn) s = .next (s.setI (addrOperand nnn)).advance := rfl

/-- Settles O28: advancing keeps the index written, and zero extension keeps the operand's number. -/
theorem loadIndexZeroExtends : Obligations.LoadIndexZeroExtends := by
  unfold Obligations.LoadIndexZeroExtends
  intro nnn s
  refine ⟨_, exec_ldINnn nnn s, ?index, ?pc, rfl⟩
  case index => rw [State.advance_i, State.setI_i, addrOperand_toNat]
  case pc => rw [State.advance_pc, State.setI_pc]

end Sys2Proof.Machine
end

/-! ## Proofs: the loads from and to the timers (46_timers_and_keys R200, R202, R203) -/

section
/-! Each of the three instructions writes one field, a register or a timer, and advances, so its proof reads that field and `pc` back through the advance. -/

namespace Sys2Proof.Machine

/-- `LD Vx,DT` never faults, and its whole effect is to write the count to `V[x]` and advance (R200). -/
theorem exec_ldVxDt (x : Reg) (s : State) : exec (.ldVxDt x) s = .next (s.setReg x s.dt).advance := rfl

/-- `LD DT,Vx` never faults, whether or not a countdown is in progress, and its whole effect is to write DT and advance (R202). -/
theorem exec_ldDtVx (x : Reg) (s : State) : exec (.ldDtVx x) s = .next (s.setDt (s.reg x)).advance := rfl

/-- `LD ST,Vx` never faults, whether or not a countdown is in progress, and its whole effect is to write ST and advance (R203). -/
theorem exec_ldStVx (x : Reg) (s : State) : exec (.ldStVx x) s = .next (s.setSt (s.reg x)).advance := rfl

/-- Settles O39: a read of DT is the write of one register, and a write of DT or ST replaces the count and stands after the advance. -/
theorem timerLoadsMoveTheCount : Obligations.TimerLoadsMoveTheCount := by
  unfold Obligations.TimerLoadsMoveTheCount
  intro x s
  refine ⟨?readDelay, ?writeDelay, ?writeSound⟩
  case readDelay => exact ⟨_, exec_ldVxDt x s, registerEffect_setReg_advance s x s.dt⟩
  case writeDelay =>
    refine ⟨_, exec_ldDtVx x s, ?count, ?pc, rfl⟩
    case count => rw [State.advance_dt, State.setDt_dt]
    case pc => rw [State.advance_pc, State.setDt_pc]
  case writeSound =>
    refine ⟨_, exec_ldStVx x s, ?count, ?pc, rfl⟩
    case count => rw [State.advance_st, State.setSt_st]
    case pc => rw [State.advance_pc, State.setSt_pc]

end Sys2Proof.Machine
end

/-! ## Proofs: the decoder and the encoder (30_encoding R92 to R108) -/

section
/-! Three facts carry the section: the decoder reads a canonical word back, a decoded word is the canonical one but for ignored bits, and a word of a row decodes to an instruction of that row. -/

namespace Sys2Proof

/-! ### Decoding a canonical word -/

theorem decodeWord_encode (i : Instr) : decodeWord (encode i) = .instr i := by
  cases i with
  | cls => exact Laws.RoundTrip.cls
  | ret => exact Laws.RoundTrip.ret
  | jpNnn nnn => exact Laws.RoundTrip.jpNnn nnn
  | callNnn nnn => exact Laws.RoundTrip.callNnn nnn
  | seVxKk x kk => exact Laws.RoundTrip.seVxKk x kk
  | sneVxKk x kk => exact Laws.RoundTrip.sneVxKk x kk
  | seVxVy x y => exact Laws.RoundTrip.seVxVy x y
  | ldVxKk x kk => exact Laws.RoundTrip.ldVxKk x kk
  | addVxKk x kk => exact Laws.RoundTrip.addVxKk x kk
  | ldVxVy x y => exact Laws.RoundTrip.ldVxVy x y
  | orVxVy x y => exact Laws.RoundTrip.orVxVy x y
  | andVxVy x y => exact Laws.RoundTrip.andVxVy x y
  | xorVxVy x y => exact Laws.RoundTrip.xorVxVy x y
  | addVxVy x y => exact Laws.RoundTrip.addVxVy x y
  | subVxVy x y => exact Laws.RoundTrip.subVxVy x y
  | shrVx x => exact Laws.RoundTrip.shrVx x
  | subnVxVy x y => exact Laws.RoundTrip.subnVxVy x y
  | shlVx x => exact Laws.RoundTrip.shlVx x
  | sneVxVy x y => exact Laws.RoundTrip.sneVxVy x y
  | ldINnn nnn => exact Laws.RoundTrip.ldINnn nnn
  | jpV0Nnn nnn => exact Laws.RoundTrip.jpV0Nnn nnn
  | rndVxKk x kk => exact Laws.RoundTrip.rndVxKk x kk
  | drwVxVyN x y n => exact Laws.RoundTrip.drwVxVyN x y n
  | skpVx x => exact Laws.RoundTrip.skpVx x
  | sknpVx x => exact Laws.RoundTrip.sknpVx x
  | ldVxDt x => exact Laws.RoundTrip.ldVxDt x
  | ldVxK x => exact Laws.RoundTrip.ldVxK x
  | ldDtVx x => exact Laws.RoundTrip.ldDtVx x
  | ldStVx x => exact Laws.RoundTrip.ldStVx x
  | addIVx x => exact Laws.RoundTrip.addIVx x
  | ldFVx x => exact Laws.RoundTrip.ldFVx x
  | ldBVx x => exact Laws.RoundTrip.ldBVx x
  | ldMemVx x => exact Laws.RoundTrip.ldMemVx x
  | ldVxMem x => exact Laws.RoundTrip.ldVxMem x

/-- Two bytes decode to an instruction iff the word they make does, whatever follows them (R91). -/
theorem decode_eq_instr_iff {hi lo : Byte} {rest rest' : List Byte} {i : Instr} :
    decode (hi :: lo :: rest) = .instr i rest' ↔ decodeWord (wordOfBytes hi lo) = .instr i ∧ rest = rest' := by
  simp only [decode]
  split
  next j hj => rw [hj, DecodeResult.instr.injEq, Decoded.instr.injEq]
  next op hop => rw [hop]; exact ⟨fun h => (nomatch h), fun ⟨h, _⟩ => (nomatch h)⟩

/-- Settles O1: the two bytes of a word make the word again, and the word of an instruction decodes to it. -/
theorem decodeOfEncodeIsIdentity : Obligations.DecodeOfEncodeIsIdentity := by
  unfold Obligations.DecodeOfEncodeIsIdentity
  intro i rest
  refine decode_eq_instr_iff.mpr ⟨?_, rfl⟩
  rw [wordOfBytes_split]
  exact decodeWord_encode i

/-! ### Encoding a decoded word -/

/-- A word is its family and its address field. -/
theorem encNnn_eq_of_family {op : Word16} {f : BitVec 4} (hf : (opFamily op).toNat = f.toNat) :
    encNnn f (opNnn op) = op := by
  apply BitVec.eq_of_toNat_eq
  rw [opFamily_toNat] at hf
  rw [encNnn_toNat, opNnn_toNat]
  omega

/-- A word is its family, its register field and its low byte. -/
theorem encXkk_eq_of_fields {op : Word16} {f : BitVec 4} {kk : Byte} (hf : (opFamily op).toNat = f.toNat)
    (hk : (opKk op).toNat = kk.toNat) : encXkk f (opX op) kk = op := by
  apply BitVec.eq_of_toNat_eq
  rw [opFamily_toNat] at hf
  rw [opKk_toNat] at hk
  rw [encXkk_toNat, opX_val]
  omega

/-- A word is its four nibbles. -/
theorem encXyn_eq_of_fields {op : Word16} {f n : BitVec 4} (hf : (opFamily op).toNat = f.toNat)
    (hn : (opN op).toNat = n.toNat) : encXyn f (opX op) (opY op) n = op := by
  apply BitVec.eq_of_toNat_eq
  rw [opFamily_toNat] at hf
  rw [opN_toNat] at hn
  rw [encXyn_toNat, opX_val, opY_val]
  omega

theorem nibbles_and (a b c d a' b' c' d' : BitVec 4) :
    (a ++ b ++ c ++ d) &&& (a' ++ b' ++ c' ++ d') = (a &&& a') ++ (b &&& b') ++ (c &&& c') ++ (d &&& d') := by
  simp only [BitVec.and_append]

/-- Clearing the low nibble of a word, as the canonical words of families 5 and 9 do (R97, R100). -/
theorem encXyn_and_not_low (f : BitVec 4) (x y : Reg) (n : BitVec 4) :
    encXyn f x y n &&& ~~~0x000F#16 = encXyn f x y 0 := by
  rw [show ~~~0x000F#16 = BitVec.allOnes 4 ++ BitVec.allOnes 4 ++ BitVec.allOnes 4 ++ 0#4 by decide]
  refine (nibbles_and f _ _ n _ _ _ _).trans ?_
  simp only [BitVec.and_allOnes, BitVec.and_zero]
  rfl

/-- Clearing the second register field, as the canonical words of the shifts do (R99). -/
theorem encXyn_and_not_y (f : BitVec 4) (x y : Reg) (n : BitVec 4) :
    encXyn f x y n &&& ~~~0x00F0#16 = encXyn f x 0 n := by
  rw [show ~~~0x00F0#16 = BitVec.allOnes 4 ++ BitVec.allOnes 4 ++ 0#4 ++ BitVec.allOnes 4 by decide]
  refine (nibbles_and f _ _ n _ _ _ _).trans ?_
  simp only [BitVec.and_allOnes, BitVec.and_zero]
  rfl

/-- Nothing is cleared where no bit is ignored. -/
theorem not_zero_and (op : Word16) : ~~~0x0000#16 &&& op = op := by
  rw [show ~~~0x0000#16 = BitVec.allOnes 16 by decide, BitVec.allOnes_and]

/-- The shape of an instruction with no ignored bit: its canonical word is the word itself. -/
theorem eq_and_not_zero {w op : Word16} (h : w = op) : w = op &&& ~~~0x0000#16 := by
  rw [h, BitVec.and_comm, not_zero_and]

/-- Families 5 and 9 ignore the low nibble. -/
theorem encXyn_zero_eq_of_family {op : Word16} {f : BitVec 4} (hf : (opFamily op).toNat = f.toNat) :
    encXyn f (opX op) (opY op) 0 = op &&& ~~~0x000F#16 := by
  rw [← encXyn_and_not_low f (opX op) (opY op) (opN op), encXyn_eq_of_fields hf rfl]

theorem encode_of_decodeFamily0 {op : Word16} {i : Instr} (h : decodeFamily0 op = .instr i) :
    encode i = op &&& ~~~i.ignoredBits := by
  unfold decodeFamily0 at h
  split at h
  case isTrue hop => cases h; exact eq_and_not_zero hop.symm
  case isFalse =>
    split at h
    case isTrue hop => cases h; exact eq_and_not_zero hop.symm
    case isFalse => cases h

theorem encode_of_decodeFamily8 {op : Word16} {i : Instr} (hf : (opFamily op).toNat = 8)
    (h : decodeFamily8 op = .instr i) : encode i = op &&& ~~~i.ignoredBits := by
  have hshift {n : BitVec 4} (hn : (opN op).toNat = n.toNat) : encXyn 8 (opX op) 0 n = op &&& ~~~0x00F0#16 := by
    rw [← encXyn_and_not_y 8 (opX op) (opY op) n, encXyn_eq_of_fields hf hn]
  unfold decodeFamily8 at h
  split at h
  case h_7 hn | h_9 hn => cases h; exact hshift hn
  case h_10 => cases h
  all_goals
    rename_i hn
    cases h
    exact eq_and_not_zero (encXyn_eq_of_fields hf hn)

theorem encode_of_decodeFamilyE {op : Word16} {i : Instr} (hf : (opFamily op).toNat = 0xE)
    (h : decodeFamilyE op = .instr i) : encode i = op &&& ~~~i.ignoredBits := by
  unfold decodeFamilyE at h
  split at h
  case h_3 => cases h
  all_goals
    rename_i hk
    cases h
    exact eq_and_not_zero (encXkk_eq_of_fields hf hk)

theorem encode_of_decodeFamilyF {op : Word16} {i : Instr} (hf : (opFamily op).toNat = 0xF)
    (h : decodeFamilyF op = .instr i) : encode i = op &&& ~~~i.ignoredBits := by
  unfold decodeFamilyF at h
  split at h
  case h_10 => cases h
  all_goals
    rename_i hk
    cases h
    exact eq_and_not_zero (encXkk_eq_of_fields hf hk)

/-- A decoded word is the instruction's canonical word but for the bits the instruction ignores (R106). -/
theorem encode_of_decodeWord {op : Word16} {i : Instr} (h : decodeWord op = .instr i) :
    encode i = op &&& ~~~i.ignoredBits := by
  unfold decodeWord at h
  split at h
  case h_1 => exact encode_of_decodeFamily0 h
  case h_9 hf => exact encode_of_decodeFamily8 hf h
  case h_15 hf => exact encode_of_decodeFamilyE hf h
  case h_16 =>
    have := (opFamily op).isLt
    simp only [imp_false] at *
    exact encode_of_decodeFamilyF (by omega) h
  case h_6 hf | h_10 hf => cases h; exact encXyn_zero_eq_of_family hf
  case h_2 hf | h_3 hf | h_11 hf | h_12 hf => cases h; exact eq_and_not_zero (encNnn_eq_of_family hf)
  case h_4 hf | h_5 hf | h_7 hf | h_8 hf | h_13 hf => cases h; exact eq_and_not_zero (encXkk_eq_of_fields hf rfl)
  case h_14 hf => cases h; exact eq_and_not_zero (encXyn_eq_of_fields hf rfl)

/-- Settles O2: the word's fields are the encoder's operands, family by family. -/
theorem encodeOfDecodeIsTheWordButForIgnoredBits : Obligations.EncodeOfDecodeIsTheWordButForIgnoredBits := by
  unfold Obligations.EncodeOfDecodeIsTheWordButForIgnoredBits
  exact fun _ _ => encode_of_decodeWord

/-! ### The rows of the opcode map -/

/-- A row that fixes the family alone. -/
theorem and_F000_iff_family {op v : Word16} (hv : v.toNat % 4096 = 0) :
    op &&& 0xF000#16 = v ↔ (opFamily op).toNat = v.toNat / 4096 := by
  rw [and_F000_eq op v hv, opFamily_toNat]

/-- A row that fixes the family and the low nibble. -/
theorem and_F00F_iff_family_low {op v : Word16} (hv : v.toNat % 4096 < 16) :
    op &&& 0xF00F#16 = v ↔ (opFamily op).toNat = v.toNat / 4096 ∧ (opN op).toNat = v.toNat % 16 := by
  rw [and_F00F_eq op v hv, opFamily_toNat, opN_toNat]

/-- A row that fixes the family and the low byte. -/
theorem and_F0FF_iff_family_byte {op v : Word16} (hv : v.toNat % 4096 < 256) :
    op &&& 0xF0FF#16 = v ↔ (opFamily op).toNat = v.toNat / 4096 ∧ (opKk op).toNat = v.toNat % 256 := by
  rw [and_F0FF_eq op v hv, opFamily_toNat, opKk_toNat]

/-- A canonical word lies in its instruction's row. -/
theorem matches_encode (i : Instr) : i.matches (encode i) := by
  unfold Instr.matches
  cases i with
  | cls | ret => rfl
  | jpNnn | callNnn | ldINnn | jpV0Nnn | seVxKk | sneVxKk | ldVxKk | addVxKk | rndVxKk
  | seVxVy | sneVxVy | drwVxVyN =>
    simp only [encode, Instr.pattern]
    exact (and_F000_iff_family (by decide)).mpr (by simp)
  | ldVxVy | orVxVy | andVxVy | xorVxVy | addVxVy | subVxVy | shrVx | subnVxVy | shlVx =>
    simp only [encode, Instr.pattern]
    exact (and_F00F_iff_family_low (by decide)).mpr (by simp)
  | _ =>
    simp only [encode, Instr.pattern]
    exact (and_F0FF_iff_family_byte (by decide)).mpr (by simp)

/-- An ignored bit is no bit of the row's mask (R106). -/
theorem not_ignoredBits_and_mask (i : Instr) : ~~~i.ignoredBits &&& i.pattern.mask = i.pattern.mask := by
  cases i with
  | seVxVy | sneVxVy => exact (by decide : ~~~0x000F#16 &&& 0xF000#16 = 0xF000#16)
  | shrVx | shlVx => exact (by decide : ~~~0x00F0#16 &&& 0xF00F#16 = 0xF00F#16)
  | _ => exact not_zero_and _

/-- Decoding stays within the row: the canonical word lies in it, and ignored bits do not matter to it. -/
theorem matches_of_decodeWord {op : Word16} {i : Instr} (h : decodeWord op = .instr i) : i.matches op := by
  have hrow : encode i &&& i.pattern.mask = i.pattern.value := matches_encode i
  rwa [encode_of_decodeWord h, BitVec.and_assoc, not_ignoredBits_and_mask] at hrow

/-! ### A word of a row decodes within it -/

theorem decodeWord_of_family8 {op : Word16} (hf : (opFamily op).toNat = 0x8) : decodeWord op = decodeFamily8 op := by
  simp only [decodeWord, hf]

theorem decodeWord_of_familyE {op : Word16} (hf : (opFamily op).toNat = 0xE) : decodeWord op = decodeFamilyE op := by
  simp only [decodeWord, hf]

theorem decodeWord_of_familyF {op : Word16} (hf : (opFamily op).toNat = 0xF) : decodeWord op = decodeFamilyF op := by
  simp only [decodeWord, hf]

/-- The converse of `matches_of_decodeWord`: a word of a row is not `UNKNOWN`, and what it decodes to is of that row (R94 to R105). -/
theorem decodeWord_of_matches {i : Instr} {op : Word16} (h : i.matches op) :
    ∃ j, decodeWord op = .instr j ∧ j.pattern = i.pattern := by
  unfold Instr.matches at h
  cases i with
  | cls | ret =>
    simp only [Instr.pattern] at h
    rw [show 0xFFFF#16 = BitVec.allOnes 16 by decide, BitVec.and_allOnes] at h
    subst h
    exact ⟨_, rfl, rfl⟩
  | ldVxVy | orVxVy | andVxVy | xorVxVy | addVxVy | subVxVy | shrVx | subnVxVy | shlVx =>
    simp only [Instr.pattern] at h
    obtain ⟨hf, hn⟩ := (and_F00F_iff_family_low (by decide)).mp h
    rw [decodeWord_of_family8 hf, decodeFamily8, hn]
    exact ⟨_, rfl, rfl⟩
  | skpVx | sknpVx =>
    simp only [Instr.pattern] at h
    obtain ⟨hf, hk⟩ := (and_F0FF_iff_family_byte (by decide)).mp h
    rw [decodeWord_of_familyE hf, decodeFamilyE, hk]
    exact ⟨_, rfl, rfl⟩
  | ldVxDt | ldVxK | ldDtVx | ldStVx | addIVx | ldFVx | ldBVx | ldMemVx | ldVxMem =>
    simp only [Instr.pattern] at h
    obtain ⟨hf, hk⟩ := (and_F0FF_iff_family_byte (by decide)).mp h
    rw [decodeWord_of_familyF hf, decodeFamilyF, hk]
    exact ⟨_, rfl, rfl⟩
  | _ =>
    simp only [Instr.pattern] at h
    have hf := (and_F000_iff_family (by decide)).mp h
    rw [decodeWord, hf]
    exact ⟨_, rfl, rfl⟩

/-- `UNKNOWN` carries the word decoded: whichever family answers it, that is all it answers (R94, R124). -/
theorem eq_of_decodeWord_unknown {op w : Word16} (h : decodeWord op = .unknown w) : w = op := by
  unfold decodeWord decodeFamily0 decodeFamily8 decodeFamilyE decodeFamilyF at h
  repeat' split at h
  all_goals cases h
  all_goals rfl

/-- Settles O3: a decoded word lies in its row, and a word of a row would have decoded to an instruction. -/
theorem decodeFollowsTheOpcodeMap : Obligations.DecodeFollowsTheOpcodeMap := by
  unfold Obligations.DecodeFollowsTheOpcodeMap
  refine ⟨fun op i => matches_of_decodeWord, fun op w h => ⟨eq_of_decodeWord_unknown h, fun i hi => ?_⟩⟩
  obtain ⟨j, hj, -⟩ := decodeWord_of_matches hi
  exact nomatch hj.symm.trans h

/-- Settles O4: both rows are the row of what the word decodes to. -/
theorem opcodeMapRowsDoNotOverlap : Obligations.OpcodeMapRowsDoNotOverlap := by
  unfold Obligations.OpcodeMapRowsDoNotOverlap
  intro i j op hi hj
  obtain ⟨k, hk, hki⟩ := decodeWord_of_matches hi
  obtain ⟨l, hl, hlj⟩ := decodeWord_of_matches hj
  obtain rfl : k = l := Decoded.instr.inj (hk.symm.trans hl)
  exact hki.symm.trans hlj

/-! ### Words of the spec's examples -/

/-- Settles O5: ten fixed words, each read by evaluating the decoder on it. -/
theorem specExampleWordsDecode : Obligations.SpecExampleWordsDecode := by
  unfold Obligations.SpecExampleWordsDecode
  decide

end Sys2Proof
end

/-! ## Proofs: what an instruction can change (the frames of 41_control_flow to 46_timers_and_keys) -/

section
/-! The inversion of a completed instruction, by the part of the state its group can change, and from it one lemma for memory, one for the stack and one for the registers.
The step, the invariant, the frames and the whole-machine rules cite these. -/

namespace Sys2Proof.Machine

open Sys2Proof.Safety

/-! ### The groups of instructions -/

/-- `LD Vx,[I]` replaces the registers, whatever it loads, and advances. -/
theorem exec_ldVxMem_setRegs {x : Reg} {s t : State} (h : exec (.ldVxMem x) s = .next t) :
    ∃ w, t = (s.setRegs w).advance := by
  obtain ⟨-, rfl⟩ := guardData_next.mp h
  exact ⟨_, rfl⟩

/-- The instructions whose destination is registers change those, `pc`, and the count of draws. -/
theorem exec_frame_of_writesRegisters {i : Instr} {s t : State} (hi : writesRegisters i = true) (h : exec i s = .next t) :
    t = { s with v := t.v, pc := t.pc, draws := t.draws } := by
  cases i with
  | ldVxKk | addVxKk | ldVxVy | orVxVy | andVxVy | xorVxVy | addVxVy | subVxVy | shrVx | subnVxVy | shlVx | rndVxKk
  | ldVxDt => cases h; rfl
  | ldVxK => obtain ⟨k, -, rfl⟩ | ⟨-, rfl⟩ := execLdVxK_next.mp h <;> rfl
  | ldVxMem => obtain ⟨w, rfl⟩ := exec_ldVxMem_setRegs h; rfl
  | _ => cases hi

/-- Jumps, call, return and skips change `pc`, the stack and `SP`. -/
theorem exec_frame_of_transfersControl {i : Instr} {s t : State} (hi : transfersControl i = true)
    (h : exec i s = .next t) : t = { s with pc := t.pc, stack := t.stack, sp := t.sp } := by
  cases i with
  | ret => obtain ⟨-, rfl⟩ := execRet_next.mp h; rfl
  | callNnn => obtain ⟨-, rfl⟩ := execCallNnn_next.mp h; rfl
  | skpVx | sknpVx => obtain ⟨k, -, rfl⟩ := skipOnKey_next.mp h; rfl
  | jpNnn | jpV0Nnn | seVxKk | sneVxKk | seVxVy | sneVxVy => cases h; rfl
  | _ => cases hi

/-- The stores change memory and `pc`. -/
theorem exec_frame_of_storedBytes {i : Instr} {s t : State} (h : exec i s = .next t) (hi : storedBytes i ≠ 0) :
    t = { s with mem := t.mem, pc := t.pc } := by
  cases i with
  | ldBVx | ldMemVx => obtain ⟨-, rfl⟩ := guardData_next.mp h; rfl
  | _ => exact absurd rfl hi

/-- What an instruction that completes can change from `s` to `t`: one case per group of instructions. -/
inductive Change (i : Instr) (s t : State) : Prop where
  | registers (hi : writesRegisters i = true) (ht : t = { s with v := t.v, pc := t.pc, draws := t.draws })
  | control (hi : transfersControl i = true) (ht : t = { s with pc := t.pc, stack := t.stack, sp := t.sp })
  | memory (hi : storedBytes i ≠ 0) (ht : t = { s with mem := t.mem, pc := t.pc })
  | index (ht : t = { s with i := t.i, pc := t.pc })
  | delay (x : Reg) (hi : i = .ldDtVx x) (ht : t = { s with dt := s.reg x, pc := t.pc })
  | sound (x : Reg) (hi : i = .ldStVx x) (ht : t = { s with st := s.reg x, pc := t.pc })
  | display (hr : s.redraw = true → t.redraw = true)
      (ht : t = { s with fb := t.fb, v := t.v, redraw := t.redraw, pc := t.pc })

/-- Every completed instruction is of one of the groups, and changes no more than the group can. -/
theorem exec_change {i : Instr} {s t : State} (h : exec i s = .next t) : Change i s t := by
  cases i with
  | cls => cases h; exact .display id rfl
  | drwVxVyN => obtain ⟨-, rfl⟩ := guardData_next.mp h; exact .display (fun _ => rfl) rfl
  | ldINnn | addIVx | ldFVx => cases h; exact .index rfl
  | ldDtVx x => cases h; exact .delay x rfl rfl
  | ldStVx x => cases h; exact .sound x rfl rfl
  | ret | jpNnn | callNnn | jpV0Nnn | seVxKk | sneVxKk | seVxVy | sneVxVy | skpVx | sknpVx =>
    exact .control rfl (exec_frame_of_transfersControl rfl h)
  | ldBVx | ldMemVx => exact .memory (Nat.succ_ne_zero _) (exec_frame_of_storedBytes h (Nat.succ_ne_zero _))
  | _ => exact .registers rfl (exec_frame_of_writesRegisters rfl h)

/-! ### Memory (20_memory R62) -/

theorem exec_mem_of_storedBytes_eq_zero {i : Instr} {s t : State} (h0 : storedBytes i = 0) (h : exec i s = .next t) :
    t.mem = s.mem := by
  cases exec_change h with
  | memory hi => exact absurd h0 hi
  | registers _ ht | control _ ht | index ht | delay _ _ ht | sound _ _ ht | display _ ht => rw [ht]

/-- Memory after an instruction is memory before it with `storedBytes` bytes written from `I`. -/
theorem exec_mem_eq_writeBytes {i : Instr} {s t : State} (h : exec i s = .next t) :
    ∃ ws : List Byte, ws.length = storedBytes i ∧ t.mem = s.mem.writeBytes s.i.toNat ws := by
  cases i with
  | ldBVx x =>
    obtain ⟨-, rfl⟩ := guardData_next.mp h
    exact ⟨_, decimalDigits_length (s.reg x), rfl⟩
  | ldMemVx x =>
    obtain ⟨-, rfl⟩ := guardData_next.mp h
    exact ⟨_, regsUpTo_length s x, rfl⟩
  | _ => exact ⟨[], rfl, exec_mem_of_storedBytes_eq_zero rfl h⟩

/-- An instruction keeps the canonical form of memory. -/
theorem exec_mem_wf {i : Instr} {s t : State} (hw : s.mem.wf) (h : exec i s = .next t) : t.mem.wf := by
  obtain ⟨ws, -, hmem⟩ := exec_mem_eq_writeBytes h
  rw [hmem]
  exact Memory.writeBytes_wf hw _ _

/-- An address the instruction does not store to reads as before. -/
theorem exec_read_of_not_storesTo {i : Instr} {s t : State} {a : Nat} (ha : storesTo i s a = false)
    (h : exec i s = .next t) : t.mem.read a = s.mem.read a := by
  obtain ⟨ws, hlen, hmem⟩ := exec_mem_eq_writeBytes h
  rw [hmem, Memory.read_writeBytes_outside]
  rw [hlen]
  exact storesTo_eq_false.mp ha

/-- Every address holds what the instruction stored there, or what it held (R68). -/
theorem exec_read {i : Instr} {s t : State} (hw : s.mem.wf) (h : exec i s = .next t) (a : Nat) :
    t.mem.read a = byteAfter i s a := by
  by_cases ha : storesTo i s a = true
  · cases i with
    | ldBVx x =>
      obtain ⟨hr, rfl⟩ := guardData_next.mp h
      exact read_ldBVx hw (by omega) a
    | ldMemVx x =>
      obtain ⟨hr, rfl⟩ := guardData_next.mp h
      exact read_ldMemVx hw (by omega) a
    | _ =>
      obtain ⟨hle, hlt⟩ := storesTo_eq_true.mp ha
      exact absurd hlt (Nat.not_lt.mpr hle)
  · rw [exec_read_of_not_storesTo (Bool.not_eq_true _ ▸ ha) h, byteAfter, if_neg ha]

/-! ### The call stack (10_state R29) -/

/-- Only `CALL` writes a slot: the one at `SP`, with the address after the instruction. -/
theorem exec_stack {i : Instr} {s t : State} (h : exec i s = .next t) :
    t.stack = s.stack ∨
      ∃ (nnn : BitVec 12) (hsp : s.sp.val < 16), i = .callNnn nnn ∧ t.stack = s.stack.set s.sp.val (s.pc + 2) hsp := by
  cases i with
  | ret => obtain ⟨-, rfl⟩ := execRet_next.mp h; exact .inl rfl
  | callNnn nnn => obtain ⟨hsp, rfl⟩ := execCallNnn_next.mp h; exact .inr ⟨nnn, hsp, rfl, rfl⟩
  | skpVx | sknpVx => obtain ⟨k, -, rfl⟩ := skipOnKey_next.mp h; exact .inl rfl
  | jpNnn | jpV0Nnn | seVxKk | sneVxKk | seVxVy | sneVxVy => cases h; exact .inl rfl
  | _ =>
    cases exec_change h with
    | control hi => cases hi
    | registers _ ht | memory _ ht | index ht | delay _ _ ht | sound _ _ ht | display _ ht => rw [ht]; exact .inl rfl

/-- A slot other than the one a `CALL` pushes into is as before. -/
theorem exec_slot {i : Instr} {s t : State} (h : exec i s = .next t) {k : Fin 16}
    (hk : k.val ≠ s.sp.val ∨ ∀ nnn, i ≠ .callNnn nnn) : t.stack[k] = s.stack[k] := by
  obtain hstack | ⟨nnn, hsp, rfl, hstack⟩ := exec_stack h
  · rw [hstack]
  · have hne : s.sp.val ≠ k.val := hk.elim Ne.symm fun hi => absurd rfl (hi nnn)
    rw [hstack]
    exact Vector.getElem_set_ne _ _ hne

/-! ### Registers (10_state R23, 43_load_alu) -/

/-- A register that is neither a destination nor the VF of a flag writer is as before. -/
theorem exec_reg {i : Instr} {s t : State} {r : Reg} (hr : destination i r = false)
    (hf : writesFlag i = true → r ≠ VF) (h : exec i s = .next t) : t.reg r = s.reg r := by
  cases i with
  | ldVxKk x | addVxKk x | ldVxVy x | orVxVy x | andVxVy x | xorVxVy x | rndVxKk x | ldVxDt x =>
    cases h
    exact State.setReg_reg_ne s _ x r (beq_eq_false_iff_ne.mp hr)
  | ldVxK x =>
    obtain ⟨k, -, rfl⟩ | ⟨-, rfl⟩ := execLdVxK_next.mp h
    · exact State.setReg_reg_ne s _ x r (beq_eq_false_iff_ne.mp hr)
    · rfl
  | addVxVy x | subVxVy x | shrVx x | subnVxVy x | shlVx x =>
    cases h
    exact State.setResultAndFlag_reg_other s x _ _ r (beq_eq_false_iff_ne.mp hr) (hf rfl)
  | ldVxMem x =>
    obtain ⟨-, rfl⟩ := guardData_next.mp h
    rw [State.advance_reg, State.loadRegs_reg, if_neg (of_decide_eq_false hr)]
  | drwVxVyN =>
    obtain ⟨-, rfl⟩ := guardData_next.mp h
    exact State.setReg_reg_ne _ _ VF r (hf rfl)
  | ret => obtain ⟨-, rfl⟩ := execRet_next.mp h; rfl
  | callNnn => obtain ⟨-, rfl⟩ := execCallNnn_next.mp h; rfl
  | skpVx | sknpVx => obtain ⟨k, -, rfl⟩ := skipOnKey_next.mp h; rfl
  | ldBVx | ldMemVx => obtain ⟨-, rfl⟩ := guardData_next.mp h; rfl
  | _ => cases h; rfl

end Sys2Proof.Machine
end

/-! ## Proofs: the invariant (10_state R27, R39, R50) -/

section
/-! Memory by the canonical form, `pc` by the next-`pc` table and the stack by the one slot a `CALL` writes; then every operation of a run, and by induction every run. -/

namespace Sys2Proof.Machine

open Sys2Proof.Safety

/-! ### One step -/

/-- The entries of the next-`pc` table are at most `0x0FFF + 0xFF`, which `JP V0,nnn` attains (R27). -/
theorem nextPc_le {s : State} (hs : Inv s) (hpc : s.pc.toNat < 0xFFF) (i : Instr) : nextPc i s ≤ 0x10FE := by
  cases i with
  | jpNnn nnn | callNnn nnn =>
    have hn := nnn.isLt
    show nnn.toNat ≤ 0x10FE
    omega
  | jpV0Nnn nnn =>
    have hn := nnn.isLt
    have hv := (s.reg V0).isLt
    show nnn.toNat + (s.reg V0).toNat ≤ 0x10FE
    omega
  | ret =>
    have hlt : s.sp.val - 1 < 16 := by omega
    have hslot := hs.stackRange ⟨s.sp.val - 1, hlt⟩
    have hget : s.stack.toList.getD (s.sp.val - 1) 0 = s.stack[s.sp.val - 1] := by simp [hlt]
    show (s.stack.toList.getD (s.sp.val - 1) 0).toNat ≤ 0x10FE
    rw [hget]
    exact hslot.trans (by decide)
  | seVxKk | sneVxKk | seVxVy | sneVxVy | skpVx | sknpVx | ldVxK =>
    unfold nextPc
    dsimp only
    split <;> omega
  | _ =>
    show s.pc.toNat + 2 ≤ 0x10FE
    omega

theorem exec_keeps_inv {i : Instr} {s t : State} (hs : Inv s) (hpc : s.pc.toNat < 0xFFF) (h : exec i s = .next t) :
    Inv t where
  memory := exec_mem_wf hs.memory h
  pcRange := by
    rw [exec_pc_toNat (by omega) h]
    exact nextPc_le hs hpc i
  stackRange k := by
    obtain hstack | ⟨nnn, hsp, -, hstack⟩ := exec_stack h
    · rw [hstack]
      exact hs.stackRange k
    · have hret : (s.pc + 2).toNat ≤ 0x1000 := by
        rw [pc_add_two_toNat (by omega)]
        omega
      rw [hstack, Fin.getElem_fin, Vector.getElem_set]
      split
      · exact hret
      · exact hs.stackRange k

theorem step_keeps_inv {s t : State} (hs : Inv s) (h : step s = .next t) : Inv t := by
  obtain ⟨-, hf⟩ | ⟨hpc, i, -, hi⟩ | ⟨hpc, op, -, hu⟩ := step_cases s
  · rw [hf] at h
    cases h
  · rw [hi] at h
    exact exec_keeps_inv hs hpc h
  · rw [hu] at h
    cases h
    have hadv : s.advance.pc.toNat ≤ 0x10FE := by
      rw [State.advance_pc, pc_add_two_toNat (by omega)]
      omega
    exact ⟨hs.memory, hadv, hs.stackRange⟩

/-- Settles O57: a fault has no next state, an instruction keeps each part, an unknown opcode moves `pc` by 2. -/
theorem everyStepKeepsTheInvariant : Obligations.EveryStepKeepsTheInvariant := by
  unfold Obligations.EveryStepKeepsTheInvariant
  exact fun _ _ => step_keeps_inv

/-! ### Every operation and every run -/

/-- Of the operations beside `step` only a load touches what the invariant speaks of, and it writes bytes. -/
theorem apply_keeps_inv {σ σ' : Session} {o : Op} {r : Reply} (hs : Inv σ.core) (h : σ.apply o = .ok σ' r) :
    Inv σ'.core := by
  obtain hsame | hstep | htick | ⟨bytes, hload⟩ | ⟨k, b, hkey⟩ | htake := Session.apply_core h
  · rwa [hsame]
  · exact step_keeps_inv hs hstep
  · rw [htick]
    exact ⟨hs.memory, hs.pcRange, hs.stackRange⟩
  · obtain ⟨-, hmem⟩ := loadProgram_eq_some.mp hload
    rw [hmem]
    exact ⟨Memory.writeBytes_wf hs.memory _ _, hs.pcRange, hs.stackRange⟩
  · obtain ⟨hk, hput⟩ := setKey_eq_some.mp hkey
    rw [hput]
    exact ⟨hs.memory, hs.pcRange, hs.stackRange⟩
  · rw [htake]
    exact ⟨hs.memory, hs.pcRange, hs.stackRange⟩

/-- Settles O60: a case per operation. -/
theorem everyOperationKeepsTheInvariant : Obligations.EveryOperationKeepsTheInvariant := by
  unfold Obligations.EveryOperationKeepsTheInvariant
  exact fun _ _ _ _ => apply_keeps_inv

/-- After reset no byte differs from the reset contents, and `pc` and the slots are fixed small numbers. -/
theorem inv_reset : Inv State.reset where
  memory := ⟨.nil, nofun⟩
  pcRange := by decide
  stackRange := by decide

/-- Settles O56: the reset state meets each part. -/
theorem resetMeetsTheInvariant : Obligations.ResetMeetsTheInvariant := inv_reset

theorem inv_of_reachable {σ : Session} (h : Reachable σ) : Inv σ.core := by
  induction h with
  | start => exact inv_reset
  | op o r _ happly ih => exact apply_keeps_inv ih happly

/-- Settles O58, by induction on the run. -/
theorem everyReachableRunMeetsTheInvariant : Obligations.EveryReachableRunMeetsTheInvariant := by
  unfold Obligations.EveryReachableRunMeetsTheInvariant
  exact fun _ => inv_of_reachable

end Sys2Proof.Machine
end

/-! ## Proofs: the outcomes of an instruction and of a step (40_step_and_dispatch R120 to R127, 60_exceptions R239) -/

section
/-! The fault table decides the outcome of an instruction; a step adds the fetch fault and the reported no-op; a run ends with its first fault. -/

namespace Sys2Proof.Machine

open Sys2Proof.Safety

/-! ### The fault table -/

/-- An instruction whose fault condition holds ends in its fault. -/
theorem exec_of_faultOf_eq_some {i : Instr} {s : State} {f : Fault} (h : faultOf i s = some f) :
    exec i s = .fault f := by
  cases i with
  | ret =>
    obtain ⟨hsp, hf⟩ := Option.ite_none_right_eq_some.mp h
    exact execRet_fault.mpr ⟨hsp, (Option.some.inj hf).symm⟩
  | callNnn =>
    obtain ⟨hsp, hf⟩ := Option.ite_none_right_eq_some.mp h
    exact execCallNnn_fault.mpr ⟨hsp, (Option.some.inj hf).symm⟩
  | skpVx | sknpVx =>
    obtain ⟨hkey, hf⟩ := Option.ite_none_right_eq_some.mp h
    exact skipOnKey_fault.mpr ⟨hkey, (Option.some.inj hf).symm⟩
  | drwVxVyN | ldBVx | ldMemVx | ldVxMem =>
    obtain ⟨hrange, hf⟩ := Option.ite_none_right_eq_some.mp h
    exact guardData_fault.mpr ⟨by omega, (Option.some.inj hf).symm⟩
  | _ => cases h

/-- An instruction whose fault condition does not hold completes. -/
theorem exec_of_faultOf_eq_none {i : Instr} {s : State} (h : faultOf i s = none) : ∃ t, exec i s = .next t := by
  cases i with
  | ret =>
    have hsp : s.sp.val ≠ 0 := by simpa [faultOf] using h
    exact ⟨_, execRet_next.mpr ⟨Nat.pos_of_ne_zero hsp, rfl⟩⟩
  | callNnn =>
    have hsp : s.sp.val ≠ 16 := by simpa [faultOf] using h
    exact ⟨_, execCallNnn_next.mpr ⟨by omega, rfl⟩⟩
  | skpVx x | sknpVx x =>
    have hkey : ¬ 15 < (s.reg x).toNat := by simpa [faultOf] using h
    exact ⟨_, skipOnKey_next.mpr ⟨⟨(s.reg x).toNat, by omega⟩, rfl, rfl⟩⟩
  | drwVxVyN x y n =>
    have hrange : ¬ (0 < n.toNat ∧ 4095 < s.i.toNat + n.toNat - 1) := by simpa [faultOf] using h
    exact ⟨_, guardData_next.mpr ⟨by omega, rfl⟩⟩
  | ldBVx =>
    have hrange : ¬ 4095 < s.i.toNat + 2 := by simpa [faultOf] using h
    exact ⟨_, guardData_next.mpr ⟨by omega, rfl⟩⟩
  | ldMemVx x | ldVxMem x =>
    have hrange : ¬ 4095 < s.i.toNat + x.val := by simpa [faultOf] using h
    exact ⟨_, guardData_next.mpr ⟨by omega, rfl⟩⟩
  | ldVxK x =>
    cases hk : s.lowestKey with
    | none => exact ⟨_, execLdVxK_next.mpr (.inr ⟨hk, rfl⟩)⟩
    | some k => exact ⟨_, execLdVxK_next.mpr (.inl ⟨k, hk, rfl⟩)⟩
  | _ => exact ⟨_, rfl⟩

/-- Settles O10: an instruction's outcome is read off the fault table. -/
theorem everyInstructionRunsUnlessItsFaultConditionHolds :
    Obligations.EveryInstructionRunsUnlessItsFaultConditionHolds := by
  unfold Obligations.EveryInstructionRunsUnlessItsFaultConditionHolds
  exact fun _ _ => ⟨fun _ => exec_of_faultOf_eq_some, exec_of_faultOf_eq_none⟩

/-- The fault table lists a fault or it does not, so no outcome is left for a refusal. -/
theorem exec_ne_refused (i : Instr) (s : State) (r : Refusal) : exec i s ≠ .refused r := by
  cases hf : faultOf i s with
  | some f => rw [exec_of_faultOf_eq_some hf]; exact nofun
  | none =>
    obtain ⟨t, ht⟩ := exec_of_faultOf_eq_none hf
    rw [ht]
    exact nofun

/-- Settles O11: a step ends in the fetch fault, in an instruction's outcome, or in the state past an unknown opcode. -/
theorem noStepIsRefused : Obligations.NoStepIsRefused := by
  unfold Obligations.NoStepIsRefused
  intro s r
  obtain ⟨-, hf⟩ | ⟨-, i, -, hi⟩ | ⟨-, op, -, hu⟩ := step_cases s
  · rw [hf]; exact nofun
  · rw [hi]; exact exec_ne_refused i s r
  · rw [hu]; exact nofun

/-! ### The step of a decoded word -/

theorem fetchable_of_lt {s : State} (hpc : s.pc.toNat + 1 < 4096) : s.fetchable = true :=
  (fetchable_iff s).mpr (by omega)

theorem cycle_of_decodeWord_instr {s : State} {i : Instr} (hpc : s.pc.toNat + 1 < 4096)
    (hi : decodeWord s.fetchWord = .instr i) : cycle s = .ofResult (exec i s) := by
  simp only [cycle, fetchable_of_lt hpc, hi, if_true]

theorem cycle_of_decodeWord_unknown {s : State} {op : Word16} (hpc : s.pc.toNat + 1 < 4096)
    (hop : decodeWord s.fetchWord = .unknown op) : cycle s = .nextWithReport s.advance op := by
  simp only [cycle, fetchable_of_lt hpc, hop, if_true, execUnknown]

/-- An instruction's outcome goes through the step's outcomes unchanged (R229). -/
theorem toResult_ofResult (r : Result) : (CycleOutcome.ofResult r).toResult = r := by
  cases r <;> rfl

theorem step_of_decodeWord_instr {s : State} {i : Instr} (hpc : s.pc.toNat + 1 < 4096)
    (hi : decodeWord s.fetchWord = .instr i) : step s = exec i s := by
  rw [step, cycle_of_decodeWord_instr hpc hi, toResult_ofResult]

/-- Settles O6: the two bytes make the word the step decodes. -/
theorem stepRunsTheDecodedInstruction : Obligations.StepRunsTheDecodedInstruction := by
  unfold Obligations.StepRunsTheDecodedInstruction
  intro s i hpc hdecode
  obtain ⟨hi, -⟩ := decode_eq_instr_iff.mp hdecode
  exact ⟨step_of_decodeWord_instr hpc hi, cycle_of_decodeWord_instr hpc hi⟩

theorem fetchWord_toNat (s : State) :
    s.fetchWord.toNat = (s.mem.read s.pc.toNat).toNat * 256 + (s.mem.read (s.pc.toNat + 1)).toNat :=
  wordOfBytes_toNat _ _

/-- Settles O8: `UNKNOWN` carries the word fetched, and the step advances over it. -/
theorem unknownOpcodeIsAReportedNoOp : Obligations.UnknownOpcodeIsAReportedNoOp := by
  unfold Obligations.UnknownOpcodeIsAReportedNoOp
  intro s op hpc hop
  have hword := eq_of_decodeWord_unknown hop
  have hcycle := cycle_of_decodeWord_unknown hpc hop
  refine ⟨hword, ?number, hcycle, ?step⟩
  case number => rw [hword, fetchWord_toNat]
  case step => rw [step, hcycle]; rfl

/-! ### What a step does not do (R127) -/

/-- Settles O12: of the groups of instructions one writes DT, one writes ST, none KEY, and none clears `REDRAW`; a settled state's instruction writes to `pc` what it holds. -/
theorem stepDoesNotTickSampleOrHalt : Obligations.StepDoesNotTickSampleOrHalt := by
  unfold Obligations.StepDoesNotTickSampleOrHalt
  refine ⟨fun s t h => ?_, fun s ⟨hfetch, nnn, hi, hself⟩ => ?_⟩
  · obtain ⟨-, hf⟩ | ⟨-, i, hi, hexec⟩ | ⟨-, op, -, hu⟩ := step_cases s
    · rw [hf] at h
      cases h
    · rw [hexec] at h
      cases exec_change h with
      | delay x hx ht => subst hx; rw [ht]; exact ⟨.inr ⟨x, hi, rfl⟩, .inl rfl, rfl, id⟩
      | sound x hx ht => subst hx; rw [ht]; exact ⟨.inl rfl, .inr ⟨x, hi, rfl⟩, rfl, id⟩
      | display hr ht => exact ⟨.inl (by rw [ht]), .inl (by rw [ht]), by rw [ht], hr⟩
      | registers _ ht | control _ ht | memory _ ht | index ht => rw [ht]; exact ⟨.inl rfl, .inl rfl, rfl, id⟩
    · rw [hu] at h
      cases h
      exact ⟨.inl rfl, .inl rfl, rfl, id⟩
  · have hpc := (fetchable_iff s).mp hfetch
    rw [step_of_decodeWord_instr (by omega) hi, exec_jpNnn, hself]
    rfl

/-! ### A call to a return (41_control_flow R145) -/

theorem run_two_of_step {s t u : State} (hst : step s = .next t) (htu : step t = .next u) :
    Sys2Proof.core.run 2 s = .next u := by
  have hst' : Sys2Proof.core.step s = .next t := hst
  have htu' : Sys2Proof.core.step t = .next u := htu
  simp only [Host.Core.run, hst', htu']

/-- A `CALL` at a depth below 16 (R142). -/
theorem exec_callNnn_of_sp_lt {s : State} (hsp : s.sp.val < 16) (nnn : BitVec 12) :
    exec (.callNnn nnn) s = .next { s with
      stack := s.stack.set s.sp.val (s.pc + 2) hsp, sp := ⟨s.sp.val + 1, by omega⟩, pc := addrOperand nnn } :=
  execCallNnn_next.mpr ⟨hsp, rfl⟩

/-- A `RET` at depth `d + 1` comes back to slot `d` and to depth `d`. -/
theorem exec_ret_of_sp_succ {s : State} {d : Nat} (hd : d < 16) (hsp : s.sp.val = d + 1) :
    exec .ret s = .next { s with sp := ⟨d, by omega⟩, pc := s.stack[d] } := by
  refine execRet_next.mpr ⟨by omega, ?_⟩
  simp only [hsp, Nat.add_sub_cancel]

/-- Settles O17: the second step fetches `00EE`, and the slot it pops is the one the first step pushed into. -/
theorem callThenReturnComesBack : Obligations.CallThenReturnComesBack := by
  unfold Obligations.CallThenReturnComesBack
  intro s nnn hsp hpc hnnn hcall hhi hlo
  have hfirst := (step_of_decodeWord_instr (by omega) hcall).trans (exec_callNnn_of_sp_lt hsp nnn)
  refine run_two_of_step hfirst ?_
  have htarget := addrOperand_toNat nnn
  rw [step_of_decodeWord_instr (i := .ret) ?inMemory ?isRet, exec_ret_of_sp_succ hsp rfl]
  · simp only [Vector.getElem_set_self]
  case inMemory =>
    show (addrOperand nnn).toNat + 1 < 4096
    omega
  case isRet =>
    simp only [State.fetchWord, htarget, hhi, hlo]
    rfl

/-! ### The end of a run (47_host_operations R215, 60_exceptions R227) -/

theorem cycle_eq_fault_of_step {s : State} {f : Fault} (h : step s = .fault f) : cycle s = .fault f := by
  unfold step at h
  cases hc : cycle s <;> rw [hc] at h <;> cases h
  rfl

theorem apply_eq_perform {σ : Session} (h : ∀ g, σ.phase ≠ .ended g) (o : Op) : σ.apply o = σ.perform o := by
  unfold Session.apply
  split
  next f hf => exact absurd hf (h f)
  next => rfl

/-- Settles O59: the phase decides which operations there are, and a fault of `cycle` sets it. -/
theorem faultsEndTheRunAndLoadsComeFirst : Obligations.FaultsEndTheRunAndLoadsComeFirst := by
  unfold Obligations.FaultsEndTheRunAndLoadsComeFirst
  refine ⟨fun σ f hrun hf => ?fault, fun σ f o hend => ?ended, fun σ bytes hphase => ?load⟩
  case fault =>
    rw [apply_eq_perform hrun]
    simp only [Session.perform, Session.doStep, cycle_eq_fault_of_step hf]
  case ended => simp only [Session.apply, hend]
  case load => obtain h | h := hphase <;> simp only [Session.apply, Session.perform, Session.doLoad, h]

end Sys2Proof.Machine
end

/-! ## Proofs: jumps, call, return and skips (41_control_flow R140 to R143, 42_skips R153 to R156) -/

section
/-! Each control transfer writes `pc`, and a call or return `SP` too; the frame of the group comes from the inversion of a completed instruction. -/

namespace Sys2Proof.Machine

open Sys2Proof.Safety

/-! ### Jump with offset, call and return -/

/-- `JP V0,nnn` never faults, and its whole effect is to write the sum to `pc` (R143). -/
theorem exec_jpV0Nnn (nnn : BitVec 12) (s : State) :
    exec (.jpV0Nnn nnn) s = .next (s.setPc (addrOperand nnn + zext16 (s.reg V0))) := rfl

/-- Settles O14: twelve bits and eight bits sum below 65536. -/
theorem jumpWithOffsetSetsPcToTheUnreducedSum : Obligations.JumpWithOffsetSetsPcToTheUnreducedSum := by
  unfold Obligations.JumpWithOffsetSetsPcToTheUnreducedSum
  exact fun nnn s => ⟨_, exec_jpV0Nnn nnn s, addrOperand_add_zext16_toNat nnn (s.reg V0), rfl⟩

/-- Settles O15: a push succeeds below depth 16 and writes the one slot at `SP`. -/
theorem callPushesTheReturnAddress : Obligations.CallPushesTheReturnAddress := by
  unfold Obligations.CallPushesTheReturnAddress
  refine fun nnn s hpc => ⟨fun hsp => ?push, fun hfull => execCallNnn_fault.mpr ⟨hfull, rfl⟩⟩
  have hexec := exec_callNnn_of_sp_lt hsp nnn
  refine ⟨_, hexec, rfl, ?slot, fun k hk => exec_slot hexec (.inl hk), addrOperand_toNat nnn, rfl⟩
  case slot => rw [Vector.getElem_set_self, pc_add_two_toNat hpc]

/-- Settles O16: a pop succeeds above depth 0 and writes no slot. -/
theorem returnPopsIntoPc : Obligations.ReturnPopsIntoPc := by
  unfold Obligations.ReturnPopsIntoPc
  refine fun s => ⟨fun hsp => ?pop, fun hempty => execRet_fault.mpr ⟨hempty, rfl⟩⟩
  exact ⟨_, execRet_next.mpr ⟨hsp, rfl⟩, Nat.sub_add_cancel hsp, rfl, rfl⟩

/-! ### Skips on two registers and on a key -/

/-- `SE Vx,Vy` never faults, and its whole effect is one skip (R153). -/
theorem exec_seVxVy (x y : Reg) (s : State) : exec (.seVxVy x y) s = .next (s.skipIf (s.reg x == s.reg y)) := rfl

/-- `SNE Vx,Vy` never faults, and its whole effect is one skip (R154). -/
theorem exec_sneVxVy (x y : Reg) (s : State) : exec (.sneVxVy x y) s = .next (s.skipIf (s.reg x != s.reg y)) := rfl

/-- Settles O19: the family alone selects the two instructions, and each is one skip on the equality of two registers. -/
theorem registerSkipsCompareTwoRegisters : Obligations.RegisterSkipsCompareTwoRegisters := by
  unfold Obligations.RegisterSkipsCompareTwoRegisters
  refine ⟨fun op hop => ?family5, fun op hop => ?family9, fun x y s => ⟨?equal, ?unequal⟩⟩
  case family5 =>
    have hf : opFamily op = 0x5 := hop
    simp [decodeWord, hf]
  case family9 =>
    have hf : opFamily op = 0x9 := hop
    simp [decodeWord, hf]
  case equal =>
    rw [exec_seVxVy, skipIf_beq]
    rfl
  case unequal =>
    rw [exec_sneVxVy, skipIf_bne]
    rfl

/-- A key skip completes on the level of the key selected. -/
theorem skipOnKey_of_toNat_eq {x : Reg} {s : State} {k : Fin 16} (hk : (s.reg x).toNat = k.val) (pressed : Bool) :
    skipOnKey x pressed s = .next (s.skipIf (s.keys[k] == pressed)) :=
  skipOnKey_next.mpr ⟨k, hk, rfl⟩

/-- Settles O20: `SKP` and `SKNP` are the one key skip, on a key pressed and on a key not pressed. -/
theorem keySkipsTestTheSelectedKey : Obligations.KeySkipsTestTheSelectedKey := by
  unfold Obligations.KeySkipsTestTheSelectedKey
  refine fun x s => ⟨fun k hk => ⟨?pressed, ?released⟩, fun hrange => ?fault⟩
  case pressed =>
    refine (skipOnKey_of_toNat_eq hk true).trans ?_
    cases s.keys[k] <;> rfl
  case released =>
    refine (skipOnKey_of_toNat_eq hk false).trans ?_
    cases s.keys[k] <;> rfl
  case fault => exact ⟨skipOnKey_fault.mpr ⟨hrange, rfl⟩, skipOnKey_fault.mpr ⟨hrange, rfl⟩⟩

/-! ### Their frame -/

/-- Of the group only `CALL` and `RET` move `SP`. -/
theorem exec_sp_of_transfersControl {i : Instr} {s t : State} (hi : transfersControl i = true)
    (hcall : ∀ nnn, i ≠ .callNnn nnn) (hret : i ≠ .ret) (h : exec i s = .next t) : t.sp = s.sp := by
  cases i with
  | ret => exact absurd rfl hret
  | callNnn nnn => exact absurd rfl (hcall nnn)
  | skpVx | sknpVx => obtain ⟨k, -, rfl⟩ := skipOnKey_next.mp h; rfl
  | jpNnn | jpV0Nnn | seVxKk | sneVxKk | seVxVy | sneVxVy => cases h; rfl
  | _ => cases hi

/-- Settles O45: the group changes `pc`, the stack and `SP`, so neither registers nor memory; the slot and `SP` each by one lemma. -/
theorem frameOfControlTransfers : Obligations.FrameOfControlTransfers := by
  unfold Obligations.FrameOfControlTransfers
  intro i s t hi h
  have ht := exec_frame_of_transfersControl hi h
  refine ⟨fun r => ?registers, fun a => ?memory, ht, fun k => exec_slot h, fun hcall hret => ?depth⟩
  case registers => rw [ht]; rfl
  case memory => rw [ht]
  case depth => exact exec_sp_of_transfersControl hi hcall hret h

end Sys2Proof.Machine
end

/-! ## Proofs: the ALU group and RND (43_load_alu R163 to R174) -/

section
/-! The copies and the bitwise operations write one register, the flag writers a result and then VF; each shape's frame is one lemma, and each instruction adds the number it writes. -/

namespace Sys2Proof.Machine

open Sys2Proof.Safety

/-! ### Copy and bitwise operations -/

/-- Settles O23: each writes one register and advances, and a bit of the combination is the combination of the bits. -/
theorem copyAndBitwiseWriteOnlyTheirDestination : Obligations.CopyAndBitwiseWriteOnlyTheirDestination := by
  unfold Obligations.CopyAndBitwiseWriteOnlyTheirDestination
  intro x y s
  have heffect := registerEffect_setReg_advance s x
  refine ⟨⟨_, rfl, heffect _⟩, ⟨_, _, rfl, heffect _, ?or⟩, ⟨_, _, rfl, heffect _, ?and⟩, ⟨_, _, rfl, heffect _, ?xor⟩⟩
  case or => exact fun k => BitVec.getLsbD_or
  case and => exact fun k => BitVec.getLsbD_and
  case xor => exact fun k => BitVec.getLsbD_xor

/-! ### Writing a result and a flag -/

/-- Whatever byte and flag are written, with `x = 15` the flag remains (R24, R162). -/
theorem resultAndFlagEffect_advance (s : State) (x : Reg) (result flag : Byte) :
    ResultAndFlagEffect s (s.setResultAndFlag x result flag).advance x result.toNat flag.toNat where
  result hx := by rw [State.advance_reg, State.setResultAndFlag_reg_result s x _ _ hx]
  flag := by rw [State.advance_reg, State.setResultAndFlag_reg_flag]
  otherRegisters r hx hf := by rw [State.advance_reg, State.setResultAndFlag_reg_other s x _ _ r hx hf]
  pc := by rw [State.advance_pc, State.setResultAndFlag_pc]
  rest := rfl

theorem flagByte_toNat (b : Bool) : (flagByte b).toNat = if b then 1 else 0 := by
  cases b <;> rfl

theorem carryFlag_toNat (a b : Byte) : (carryFlag a b).toNat = if 255 < a.toNat + b.toNat then 1 else 0 := by
  simp only [carryFlag, flagByte_toNat, decide_eq_true_eq]

theorem greaterFlag_toNat (a b : Byte) : (greaterFlag a b).toNat = if b.toNat < a.toNat then 1 else 0 := by
  simp only [greaterFlag, flagByte_toNat, decide_eq_true_eq]

/-- Bit 0 as a number (R169). -/
theorem lowBitFlag_toNat (a : Byte) : (lowBitFlag a).toNat = a.toNat % 2 := by
  rw [lowBitFlag, flagByte_toNat, BitVec.getLsbD, Nat.testBit_zero]
  simp only [decide_eq_true_eq]
  split <;> omega

/-- Bit 7 as a number (R171). -/
theorem highBitFlag_toNat (a : Byte) : (highBitFlag a).toNat = a.toNat / 128 := by
  have := a.isLt
  rw [highBitFlag, flagByte_toNat, BitVec.getLsbD, Nat.testBit_eq_decide_div_mod_eq]
  simp only [decide_eq_true_eq]
  split <;> omega

/-- A difference of bytes as a number (R168, R170). -/
theorem byte_sub_toNat (a b : Byte) : (a - b).toNat = (a.toNat + 256 - b.toNat) % 256 := by
  rw [BitVec.toNat_sub]
  omega

/-- Settles O24: the number of the sum, and of the carry. -/
theorem addSetsSumAndCarry : Obligations.AddSetsSumAndCarry := by
  unfold Obligations.AddSetsSumAndCarry
  intro x y s
  refine ⟨_, rfl, ?_⟩
  have heffect := resultAndFlagEffect_advance s x (s.reg x + s.reg y) (carryFlag (s.reg x) (s.reg y))
  rwa [BitVec.toNat_add, carryFlag_toNat] at heffect

/-- Settles O25: the numbers of the difference and of the strict comparison, with the operands exchanged for `SUBN`. -/
theorem subtractionsSetDifferenceAndStrictFlag : Obligations.SubtractionsSetDifferenceAndStrictFlag := by
  unfold Obligations.SubtractionsSetDifferenceAndStrictFlag
  refine fun x y s => ⟨⟨_, rfl, ?sub⟩, ⟨_, rfl, ?subn⟩⟩
  case sub =>
    rw [← byte_sub_toNat, ← greaterFlag_toNat]
    exact resultAndFlagEffect_advance s x _ _
  case subn =>
    rw [← byte_sub_toNat, ← greaterFlag_toNat]
    exact resultAndFlagEffect_advance s x _ _

theorem byte_shiftRight_one_toNat (a : Byte) : (a >>> 1).toNat = a.toNat / 2 := by
  rw [BitVec.toNat_ushiftRight, Nat.shiftRight_eq_div_pow, pow_one]

theorem byte_shiftLeft_one_toNat (a : Byte) : (a <<< 1).toNat = 2 * a.toNat % 256 := by
  rw [BitVec.toNat_shiftLeft, Nat.shiftLeft_eq, pow_one, Nat.mul_comm]

/-- Settles O26: a shift halves or doubles the number, and the flag is its lowest or highest bit. -/
theorem shiftsSetResultAndBitShiftedOut : Obligations.ShiftsSetResultAndBitShiftedOut := by
  unfold Obligations.ShiftsSetResultAndBitShiftedOut
  refine fun x s => ⟨⟨_, rfl, ?right⟩, ⟨_, rfl, ?left⟩⟩
  case right =>
    rw [← byte_shiftRight_one_toNat, ← lowBitFlag_toNat]
    exact resultAndFlagEffect_advance s x _ _
  case left =>
    rw [← byte_shiftLeft_one_toNat, ← highBitFlag_toNat]
    exact resultAndFlagEffect_advance s x _ _

/-! ### The random byte -/

/-- `RND Vx,kk` never faults, and its whole effect is to write the masked draw, count the draw and advance (R174). -/
theorem exec_rndVxKk (x : Reg) (kk : Byte) (s : State) :
    exec (.rndVxKk x kk) s = .next ((s.setReg x (Config.draw s.draws &&& kk)).countDraw).advance := rfl

/-- Settles O27: the law of the mask holds for any drawn byte, so nothing is asked of the draw. -/
theorem randomIsTheDrawnByteMasked : Obligations.RandomIsTheDrawnByteMasked := by
  unfold Obligations.RandomIsTheDrawnByteMasked
  intro x kk s
  have hreg : (s.setReg x (Config.draw s.draws &&& kk)).reg x = Config.draw s.draws &&& kk := State.setReg_reg_self s x _
  refine ⟨_, exec_rndVxKk x kk s, hreg, ?masked, fun r hr => State.setReg_reg_ne s _ x r hr, rfl, rfl, rfl⟩
  case masked =>
    rw [State.advance_reg, State.countDraw_reg, hreg, BitVec.and_assoc, BitVec.and_not_self]
    exact BitVec.and_zero

end Sys2Proof.Machine
end

/-! ## Proofs: the index register and the memory transfers (44_index_and_memory R181 to R187) -/

section
/-! A transfer is its data check and then one write or read of a range, so each proof is the check and the law of memory for the range. -/

namespace Sys2Proof.Machine

open Sys2Proof.Safety

/-! ### Index arithmetic -/

/-- Settles O29: a 16-bit sum is the sum modulo 65536, and no glyph address reaches 65536. -/
theorem indexArithmeticIsUnmaskedAndFlagless : Obligations.IndexArithmeticIsUnmaskedAndFlagless := by
  unfold Obligations.IndexArithmeticIsUnmaskedAndFlagless
  refine fun x s => ⟨⟨_, rfl, ?sum, rfl, rfl⟩, ⟨_, rfl, glyphAddress_toNat (s.reg x), rfl, rfl⟩⟩
  case sum =>
    show (s.i + zext16 (s.reg x)).toNat = _
    rw [BitVec.toNat_add, zext16_toNat]

/-! ### The data check (R66) -/

theorem guardData_eq_next {s : State} {count : Nat} (h : count = 0 ∨ s.i.toNat + count ≤ 4096) (next : State) :
    guardData s count next = .next next :=
  guardData_next.mpr ⟨h, rfl⟩

theorem guardData_eq_fault {s : State} {count : Nat} (h : count ≠ 0 ∧ 4096 < s.i.toNat + count) (next : State) :
    guardData s count next = .fault (.outOfBounds .data s.pc s.i) :=
  guardData_fault.mpr ⟨h, rfl⟩

/-! ### The stores -/

/-- The `k`-th byte of a range just written is the `k`-th byte of the list. -/
theorem read_writeBytes_getD {m : Memory} (hw : m.wf) {a k : Nat} {ws : List Byte} (hr : a + ws.length ≤ 4096)
    (hk : k < ws.length) : (m.writeBytes a ws).read (a + k) = ws.getD k 0 := by
  rw [Memory.read_writeBytes hw hr, if_pos ⟨by omega, by omega⟩, Nat.add_sub_cancel_left]

/-- Settles O30: the three bytes at `I` are the digits, whose number is `V[x]`. -/
theorem decimalDigitsAreStored : Obligations.DecimalDigitsAreStored := by
  unfold Obligations.DecimalDigitsAreStored
  refine fun x s hw => ⟨fun hr => ⟨_, guardData_eq_next (by omega) _, ?_⟩, fun hr => guardData_eq_fault (by omega) _⟩
  obtain ⟨hundreds, tens, ones, hdigits, hh, ht, ho, hvalue⟩ := decimalDigits_value (s.reg x)
  have hread (k : Nat) (hk : k < 3) :
      (s.mem.writeBytes s.i.toNat (decimalDigits (s.reg x))).read (s.i.toNat + k) = [hundreds, tens, ones].getD k 0 := by
    rw [hdigits]
    exact read_writeBytes_getD hw (by simp; omega) hk
  have h0 := hread 0 (by omega)
  have h1 := hread 1 (by omega)
  have h2 := hread 2 (by omega)
  simp only [Nat.add_zero] at h0
  simp only [State.advance_mem, State.setMem_mem, h0, h1, h2]
  exact ⟨hvalue, hh, ht, ho, rfl, rfl⟩

/-- The byte a block store of `V0..Vx` leaves at `I + r`. -/
theorem read_writeBytes_regsUpTo {s : State} {x r : Reg} (hw : s.mem.wf) (hr : s.i.toNat + (x.val + 1) ≤ 4096)
    (hrx : r ≤ x) : (s.mem.writeBytes s.i.toNat (s.regsUpTo x)).read (s.i.toNat + r.val) = s.reg r := by
  have hlen := regsUpTo_length s x
  rw [read_writeBytes_getD hw (by rwa [hlen]) (by rw [hlen]; exact Nat.lt_succ_of_le hrx)]
  exact regsUpTo_getD s x r hrx

/-- Settles O31: the byte at `I + r` is the `r`-th of the registers stored. -/
theorem blockStoreWritesTheRegisterRange : Obligations.BlockStoreWritesTheRegisterRange := by
  unfold Obligations.BlockStoreWritesTheRegisterRange
  refine fun x s hw => ⟨fun hr => ⟨_, guardData_eq_next (by omega) _, fun r hrx => ?_, rfl, rfl⟩,
    fun hr => guardData_eq_fault (by omega) _⟩
  exact read_writeBytes_regsUpTo hw (by omega) hrx

/-- Settles O47: a store changes memory and `pc`, and memory only where it stores. -/
theorem frameOfStores : Obligations.FrameOfStores := by
  unfold Obligations.FrameOfStores
  refine fun x s t => ⟨fun h => ?digits, fun h => ?block⟩
  case digits =>
    have ht := exec_frame_of_storedBytes h (Nat.succ_ne_zero 2)
    exact ⟨fun a ha => exec_read_of_not_storesTo ha h, fun r => by rw [ht]; rfl, ht⟩
  case block =>
    have ht := exec_frame_of_storedBytes h (Nat.succ_ne_zero x.val)
    exact ⟨fun a ha => exec_read_of_not_storesTo ha h, fun r => by rw [ht]; rfl, ht⟩

/-- Settles O34: the fetch reads the two bytes, and what each holds is the law of an instruction's memory. -/
theorem storeIsSeenByTheNextFetch : Obligations.StoreIsSeenByTheNextFetch := by
  unfold Obligations.StoreIsSeenByTheNextFetch
  intro i s t hw h
  rw [fetchWord_toNat, exec_read hw h, exec_read hw h]

/-! ### The block load -/

/-- Settles O32: register `r` up to `x` is the byte at `I + r`, a register above `x` is kept. -/
theorem blockLoadReadsTheRegisterRange : Obligations.BlockLoadReadsTheRegisterRange := by
  unfold Obligations.BlockLoadReadsTheRegisterRange
  refine fun x s => ⟨fun hr => ?load, fun hr => guardData_eq_fault (by omega) _⟩
  have hexec : exec (.ldVxMem x) s = .next (s.loadRegs s.i.toNat x).advance := guardData_eq_next (by omega) _
  obtain ⟨w, hw⟩ := exec_ldVxMem_setRegs hexec
  refine ⟨_, hexec, fun r hrx => ?loaded, fun r hrx => ?kept, ?pc, ?frame⟩
  case loaded => rw [State.advance_reg, State.loadRegs_reg, if_pos hrx]
  case kept => rw [State.advance_reg, State.loadRegs_reg, if_neg (not_le.mpr hrx)]
  case pc => rw [hw]; rfl
  case frame => rw [hw]; rfl

/-- Settles O33: the store passed the data check, so the load of the same range does, and it reads the bytes stored. -/
theorem blockStoreThenLoadRestoresRegisters : Obligations.BlockStoreThenLoadRestoresRegisters := by
  unfold Obligations.BlockStoreThenLoadRestoresRegisters
  intro x s t u hw hstore hi hbytes
  obtain ⟨hr, rfl⟩ := guardData_next.mp hstore
  have hui : u.i = s.i := hi
  refine ⟨_, guardData_eq_next (by rwa [hui]) _, fun r hrx => ?_⟩
  rw [State.advance_reg, State.loadRegs_reg, if_pos hrx, hui, hbytes r hrx]
  exact read_writeBytes_regsUpTo hw (by omega) hrx

/-! ### The frame of the writes of `I` and of the timers -/

/-- Settles O46: each of the five completes by one equation, whose right side names what changes. -/
theorem frameOfIndexAndTimerWrites : Obligations.FrameOfIndexAndTimerWrites := by
  unfold Obligations.FrameOfIndexAndTimerWrites
  refine fun x nnn s t => ⟨?index, fun h => ?delay, fun h => ?sound⟩
  case index =>
    rintro (h | h | h)
    all_goals
      cases h
      exact ⟨fun _ => rfl, fun _ => rfl, rfl⟩
  case delay =>
    cases h
    exact ⟨fun _ => rfl, fun _ => rfl, rfl⟩
  case sound =>
    cases h
    exact ⟨fun _ => rfl, fun _ => rfl, rfl⟩

end Sys2Proof.Machine
end

/-! ## Proofs: CLS and DRW (45_display R190 to R192) -/

section
/-! `DRW` is its data check and then one blit: the laws of the blit say what each pixel and VF become, and the draw laws follow pixel by pixel. -/

namespace Sys2Proof.Machine

open Sys2Proof.Safety

/-! ### Clearing the screen -/

/-- `CLS` never faults, and its whole effect is to clear the framebuffer and advance (R190). -/
theorem exec_cls (s : State) : exec .cls s = .next (s.setFb Framebuffer.clear).advance := rfl

/-- Settles O35: no pixel of the clear framebuffer is set. -/
theorem clearScreenClearsEveryPixel : Obligations.ClearScreenClearsEveryPixel := by
  unfold Obligations.ClearScreenClearsEveryPixel
  refine fun s => ⟨_, exec_cls s, fun r c => ?pixel, rfl, rfl⟩
  case pixel => rw [State.advance_fb, State.setFb_fb, Framebuffer.pixel_clear]

/-! ### One draw -/

/-- The state a completed `DRW` leaves (R191). -/
def drawState (s : State) (x y : Reg) (n : BitVec 4) : State :=
  (((s.setFb (drawResult s x y n).1).setReg VF (flagByte (drawResult s x y n).2)).setRedraw true).advance

/-- `DRW` completes iff its data check passes, and then in `drawState`. -/
theorem exec_drwVxVyN_next {x y : Reg} {n : BitVec 4} {s t : State} :
    exec (.drwVxVyN x y n) s = .next t ↔ (n.toNat = 0 ∨ s.i.toNat + n.toNat ≤ 4096) ∧ drawState s x y n = t :=
  guardData_next

/-- Inside the grid a draw inverts the pixels under the sprite's 1 bits (R191 (b)). -/
theorem drawState_pixel (s : State) (x y : Reg) (n : BitVec 4) {r c : Nat} (hr : r < 32) (hc : c < 64) :
    (drawState s x y n).fb.pixel r c = (s.fb.pixel r c ^^ drawnBit s x y n r c) :=
  drawResult_pixel s x y n hr hc

theorem drawState_reg_VF (s : State) (x y : Reg) (n : BitVec 4) :
    (drawState s x y n).reg VF = flagByte (drawResult s x y n).2 :=
  State.setReg_reg_self _ VF _

/-- VF is 1 iff a 1 bit of the sprite falls on a set pixel (R191 (d)). -/
theorem drawState_reg_VF_eq_one (s : State) (x y : Reg) (n : BitVec 4) :
    (drawState s x y n).reg VF = 1 ↔
      ∃ r c, r < 32 ∧ c < 64 ∧ drawnBit s x y n r c = true ∧ s.fb.pixel r c = true := by
  rw [drawState_reg_VF, flagByte_eq_one, drawResult_collision]

/-- Outside the sprite's rectangle no pixel changes, in the grid or out of it. -/
theorem drawState_pixel_of_drawnBit_eq_false {s : State} {x y : Reg} {n : BitVec 4} {r c : Nat}
    (h : drawnBit s x y n r c = false) : (drawState s x y n).fb.pixel r c = s.fb.pixel r c := by
  by_cases hin : r < 32 ∧ c < 64
  · rw [drawState_pixel s x y n hin.1 hin.2, h, Bool.xor_false]
  · rw [Framebuffer.pixel_outside _ r c hin, Framebuffer.pixel_outside _ r c hin]

theorem drawnBit_eq_false_of_outside {s : State} {x y : Reg} {n : BitVec 4} {r c : Nat}
    (h : r < (s.reg y).toNat % 32 ∨ (s.reg y).toNat % 32 + n.toNat ≤ r ∨
      c < (s.reg x).toNat % 64 ∨ (s.reg x).toNat % 64 + 8 ≤ c) : drawnBit s x y n r c = false := by
  by_contra hne
  simp only [drawnBit, Bool.not_eq_false, Bool.and_eq_true, decide_eq_true_eq] at hne
  omega

/-- Settles O36: a set pixel that the draw clears is one under a 1 bit of the sprite. -/
theorem drawXorsTheClippedSprite : Obligations.DrawXorsTheClippedSprite := by
  unfold Obligations.DrawXorsTheClippedSprite
  refine fun x y n s => ⟨fun hr => ⟨drawState s x y n, ?runs, fun r c => drawState_pixel s x y n, ?flag, ?collision,
    fun r hrf => State.setReg_reg_ne _ _ VF r hrf, rfl, rfl, rfl⟩, fun h0 hr => guardData_eq_fault (by omega) _⟩
  case runs => exact exec_drwVxVyN_next.mpr ⟨by omega, rfl⟩
  case flag =>
    rw [drawState_reg_VF]
    exact (flagByte_zero_or_one _).symm
  case collision =>
    rw [drawState_reg_VF_eq_one]
    refine exists_congr fun r => exists_congr fun c => and_congr_right fun hrow => and_congr_right fun hcol => ?_
    rw [drawState_pixel s x y n hrow hcol]
    cases s.fb.pixel r c <;> cases drawnBit s x y n r c <;> decide

/-- Settles O38: the sprite has no bit outside its rectangle, and no bit of it falls on a set pixel of a clear screen. -/
theorem drawStaysInItsRectangle : Obligations.DrawStaysInItsRectangle := by
  unfold Obligations.DrawStaysInItsRectangle
  intro x y n s t h
  obtain ⟨-, rfl⟩ := exec_drwVxVyN_next.mp h
  refine ⟨fun r c hout => drawState_pixel_of_drawnBit_eq_false (drawnBit_eq_false_of_outside hout), fun hclear => ?_⟩
  rw [drawState_reg_VF, flagByte_eq_zero, ← Bool.not_eq_true, drawResult_collision]
  rintro ⟨r, c, -, -, -, hset⟩
  exact Bool.false_ne_true ((hclear r c).symm.trans hset)

/-! ### The same sprite drawn again (R192) -/

/-- The sprite bits depend on `I`, on the two coordinates and on the bytes of the sprite. -/
theorem drawnBit_congr {s u : State} {x y : Reg} {n : BitVec 4} (hi : u.i = s.i) (hx : u.reg x = s.reg x)
    (hy : u.reg y = s.reg y)
    (hbytes : ∀ k, k < n.toNat → u.mem.read (s.i.toNat + k) = s.mem.read (s.i.toNat + k)) (r c : Nat) :
    drawnBit u x y n r c = drawnBit s x y n r c := by
  simp only [drawnBit, hi, hx, hy]
  by_cases hrow : (s.reg y).toNat % 32 ≤ r ∧ r < (s.reg y).toNat % 32 + n.toNat
  · rw [hbytes _ (by omega)]
  · have hout : (decide ((s.reg y).toNat % 32 ≤ r) && decide (r < (s.reg y).toNat % 32 + n.toNat)) = false := by
      simpa using hrow
    simp only [hout, Bool.false_and]

/-- Settles O37: two equal XORs cancel, and the second collides where the first set a pixel. -/
theorem drawingTwiceRestoresTheScreen : Obligations.DrawingTwiceRestoresTheScreen := by
  unfold Obligations.DrawingTwiceRestoresTheScreen
  intro x y n s t u h hfb hi hx hy hbytes
  obtain ⟨hr, rfl⟩ := exec_drwVxVyN_next.mp h
  have hbit := drawnBit_congr hi hx hy hbytes
  have hpixel {r c : Nat} (hrow : r < 32) (hcol : c < 64) :
      u.fb.pixel r c = (s.fb.pixel r c ^^ drawnBit s x y n r c) := by
    rw [hfb, drawState_pixel s x y n hrow hcol]
  refine ⟨drawState u x y n, exec_drwVxVyN_next.mpr ⟨by rwa [hi], rfl⟩, ?restored, ?collision⟩
  case restored =>
    refine Framebuffer.ext_pixel fun r c hrow hcol => ?_
    rw [drawState_pixel u x y n hrow hcol, hbit, hpixel hrow hcol, Bool.xor_assoc, Bool.xor_self, Bool.xor_false]
  case collision =>
    rw [drawState_reg_VF_eq_one]
    refine exists_congr fun r => exists_congr fun c => and_congr_right fun hrow => and_congr_right fun hcol => ?_
    rw [hbit, hpixel hrow hcol]
    cases s.fb.pixel r c <;> cases drawnBit s x y n r c <;> decide

/-! ### The frame -/

/-- Settles O48: `CLS` by its equation; of the registers a draw writes VF alone. -/
theorem frameOfDisplayInstructions : Obligations.FrameOfDisplayInstructions := by
  unfold Obligations.FrameOfDisplayInstructions
  refine fun x y n s t => ⟨fun h => ?clear, fun h => ?draw⟩
  case clear =>
    cases h
    exact ⟨fun _ => rfl, fun _ => rfl, rfl⟩
  case draw =>
    obtain ⟨-, rfl⟩ := exec_drwVxVyN_next.mp h
    exact ⟨fun r hr => State.setReg_reg_ne _ _ VF r hr, fun _ => rfl, rfl⟩

end Sys2Proof.Machine
end

/-! ## Proofs: the key wait, the timers' ticks, the host's operations and reset (46_timers_and_keys R201, 47_host_operations R210 to R214, 70_reset_and_hazards R250) -/

section
/-! The operations beside the instructions each write one field, and the first fetch after a load reads back what the load wrote. -/

namespace Sys2Proof.Machine

open Sys2Proof.Safety

/-! ### The key wait -/

/-- Settles O40: with a least pressed key the wait writes its number, with none it answers the same state. -/
theorem keyWaitTakesTheLeastKeyOrWaits : Obligations.KeyWaitTakesTheLeastKeyOrWaits := by
  unfold Obligations.KeyWaitTakesTheLeastKeyOrWaits
  refine fun x s => ⟨fun k hk hleast => ?pressed, fun hidle => ?idle⟩
  case pressed =>
    have hlowest := lowestKey_eq_some.mpr ⟨hk, hleast⟩
    exact ⟨_, keyByte k, execLdVxK_next.mpr (.inl ⟨k, hlowest, rfl⟩), registerEffect_setReg_advance s x (keyByte k),
      keyByte_toNat k⟩
  case idle => exact execLdVxK_next.mpr (.inr ⟨lowestKey_eq_none.mpr hidle, rfl⟩)

/-! ### Ticks -/

theorem tickTimers_dt_toNat (s : State) : (tickTimers s).dt.toNat = s.dt.toNat - 1 := countDown_toNat s.dt

theorem tickTimers_st_toNat (s : State) : (tickTimers s).st.toNat = s.st.toNat - 1 := countDown_toNat s.st

/-- After `n` ticks each timer holds its count less `n`, floored at 0. -/
theorem iterate_tickTimers_toNat (n : Nat) (s : State) :
    (tickTimers^[n] s).dt.toNat = s.dt.toNat - n ∧ (tickTimers^[n] s).st.toNat = s.st.toNat - n := by
  induction n generalizing s with
  | zero => exact ⟨rfl, rfl⟩
  | succ n ih =>
    obtain ⟨hdt, hst⟩ := ih (tickTimers s)
    rw [Function.iterate_succ_apply, hdt, hst, tickTimers_dt_toNat, tickTimers_st_toNat]
    omega

/-- Settles O41, the many ticks by induction on their number. -/
theorem ticksCountDownToZero : Obligations.TicksCountDownToZero := by
  unfold Obligations.TicksCountDownToZero
  exact ⟨fun s => ⟨tickTimers_dt_toNat s, tickTimers_st_toNat s, rfl⟩, iterate_tickTimers_toNat⟩

/-! ### Loads, key changes and redraw checks -/

/-- Settles O42: a load is one write of a range, whose bytes and whose outside memory's laws give. -/
theorem loadPlacesTheImageVerbatim : Obligations.LoadPlacesTheImageVerbatim := by
  unfold Obligations.LoadPlacesTheImageVerbatim
  refine fun bytes s hw => ⟨fun hlen => ?fits, fun hlen => ?tooLong⟩
  case fits =>
    exact ⟨_, loadProgram_eq_some.mpr ⟨hlen, rfl⟩, fun k hk => read_writeBytes_getD hw (by omega) hk,
      fun a ha => Memory.read_writeBytes_outside s.mem ha, rfl⟩
  case tooLong =>
    refine Option.eq_none_iff_forall_not_mem.mpr fun t ht => ?_
    obtain ⟨hfits, -⟩ := loadProgram_eq_some.mp ht
    omega

/-- Settles O43: `setKey` writes one key flag, and none above 15; `takeRedraw` is its definition. -/
theorem hostSettersTouchOneFlag : Obligations.HostSettersTouchOneFlag := by
  unfold Obligations.HostSettersTouchOneFlag
  refine ⟨fun k b s => ⟨fun hk => ?inside, fun hk => ?outside⟩, fun _ => rfl⟩
  case inside =>
    refine ⟨_, setKey_eq_some.mpr ⟨hk, rfl⟩, Vector.getElem_set_self hk, fun j hj => ?_, rfl⟩
    exact Vector.getElem_set_ne hk j.isLt (Ne.symm hj)
  case outside =>
    refine Option.eq_none_iff_forall_not_mem.mpr fun t ht => ?_
    obtain ⟨hlt, -⟩ := setKey_eq_some.mp ht
    omega

/-! ### Reset and the first fetch -/

/-- Nothing lies outside the font (R34, R40). -/
theorem resetByte_of_outside_font {a : Nat} (ha : a < 0x050 ∨ 0x0A0 ≤ a) : resetByte a = 0 := by
  have hfont : font.length = 80 := rfl
  unfold resetByte
  split
  next hbase => exact List.getD_eq_default _ _ (by rw [hfont]; simp only [fontBase] at *; omega)
  next => rfl

/-- Settles O54: the fields by definition, the bytes by the place and the length of the font. -/
theorem resetHoldsTheTabledValues : Obligations.ResetHoldsTheTabledValues := by
  unfold Obligations.ResetHoldsTheTabledValues
  have hregisters : ∀ r, State.reset.reg r = 0 := by decide
  have hstack : ∀ k : Fin 16, State.reset.stack[k] = 0 := by decide
  have hkeys : ∀ k : Fin 16, State.reset.keys[k] = false := by decide
  exact ⟨hregisters, rfl, rfl, rfl, hstack, rfl, rfl, hkeys, Framebuffer.pixel_clear, rfl,
    fun _ => resetByte_of_outside_font, rfl⟩

/-- Settles O55: the two bytes at 0x200 are the first two of the range the load wrote. -/
theorem firstFetchIsTheImagesFirstWord : Obligations.FirstFetchIsTheImagesFirstWord := by
  unfold Obligations.FirstFetchIsTheImagesFirstWord
  intro hi lo rest s hload
  obtain ⟨hlen, rfl⟩ := loadProgram_eq_some.mp hload
  have hread (k : Nat) (hk : k < (hi :: lo :: rest).length) :
      (State.reset.mem.writeBytes 0x200 (hi :: lo :: rest)).read (0x200 + k) = (hi :: lo :: rest).getD k 0 :=
    read_writeBytes_getD inv_reset.memory (by omega) hk
  have hfirst : (State.reset.mem.writeBytes 0x200 (hi :: lo :: rest)).read 0x200 = hi := hread 0 (by simp)
  have hsecond : (State.reset.mem.writeBytes 0x200 (hi :: lo :: rest)).read 0x201 = lo := hread 1 (by simp)
  refine ⟨rfl, (fetchWord_toNat _).trans ?_⟩
  show ((State.reset.mem.writeBytes 0x200 _).read 0x200).toNat * 256 +
    ((State.reset.mem.writeBytes 0x200 _).read 0x201).toNat = _
  rw [hfirst, hsecond]

end Sys2Proof.Machine
end

/-! ## Proofs: rules over all instructions (10_state R23, 20_memory R62, 43_load_alu R174) -/

section
/-! Who writes VF, who stores and who draws, from the lemmas on what an instruction can change. -/

namespace Sys2Proof.Machine

open Sys2Proof.Safety

/-- Settles O44: a register that is no destination is kept, and the group changes registers, `pc` and the count of draws. -/
theorem frameOfRegisterInstructions : Obligations.FrameOfRegisterInstructions := by
  unfold Obligations.FrameOfRegisterInstructions
  intro i s t hi h
  have ht := exec_frame_of_writesRegisters hi h
  exact ⟨fun r hr hf => exec_reg hr hf h, fun a => by rw [ht], ht⟩

/-- Each flag writer's last write to a register is a flag to VF (R22, R24). -/
theorem exec_reg_VF_of_writesFlag {i : Instr} {s t : State} (hi : writesFlag i = true) (h : exec i s = .next t) :
    t.reg VF = 0 ∨ t.reg VF = 1 := by
  have hflag {u : State} {b : Bool} (hu : u.reg VF = flagByte b) : u.reg VF = 0 ∨ u.reg VF = 1 := by
    rw [hu]
    exact flagByte_zero_or_one b
  cases i with
  | addVxVy x | subVxVy x | shrVx x | subnVxVy x | shlVx x =>
    cases h
    exact hflag (State.setResultAndFlag_reg_flag s x _ _)
  | drwVxVyN x y n =>
    obtain ⟨-, rfl⟩ := exec_drwVxVyN_next.mp h
    exact hflag (drawState_reg_VF s x y n)
  | _ => cases hi

/-- Settles O49: a flag writer ends with a flag in VF, and to any other instruction VF is a register like the rest. -/
theorem flagIsWrittenOnlyByTheFlagWriters : Obligations.FlagIsWrittenOnlyByTheFlagWriters := by
  unfold Obligations.FlagIsWrittenOnlyByTheFlagWriters
  refine fun i s t h => ⟨fun hi => exec_reg_VF_of_writesFlag hi h, fun hi hdest => ?other⟩
  case other => exact exec_reg hdest (fun hw => absurd hw (by rw [hi]; exact Bool.false_ne_true)) h

/-- No instruction but `RND` consumes an environment byte (R174). -/
theorem exec_draws {i : Instr} {s t : State} (hi : ∀ x kk, i ≠ .rndVxKk x kk) (h : exec i s = .next t) :
    t.draws = s.draws := by
  cases exec_change h with
  | registers hreg =>
    cases i with
    | rndVxKk x kk => exact absurd rfl (hi x kk)
    | ldVxK => obtain ⟨k, -, rfl⟩ | ⟨-, rfl⟩ := execLdVxK_next.mp h <;> rfl
    | ldVxMem => obtain ⟨w, rfl⟩ := exec_ldVxMem_setRegs h; rfl
    | ldVxKk | addVxKk | ldVxVy | orVxVy | andVxVy | xorVxVy | addVxVy | subVxVy | shrVx | subnVxVy | shlVx | ldVxDt =>
      cases h; rfl
    | _ => cases hreg
  | control _ ht | memory _ ht | index ht | delay _ _ ht | sound _ _ ht | display _ ht => rw [ht]

/-- Settles O51: memory by the bytes an instruction stores, the count of draws by whether it is `RND`. -/
theorem onlyStoresChangeMemoryAndOnlyRandomDraws : Obligations.OnlyStoresChangeMemoryAndOnlyRandomDraws := by
  unfold Obligations.OnlyStoresChangeMemoryAndOnlyRandomDraws
  refine fun i s t h => ⟨fun a ha => exec_read_of_not_storesTo ha h, ?draws⟩
  split
  next hrnd =>
    obtain ⟨x, kk, rfl⟩ := hrnd
    cases h
    rfl
  next hother => exact exec_draws (fun x kk hi => hother ⟨x, kk, hi⟩) h

end Sys2Proof.Machine
end

/-! ## Proofs: what an instruction does not look at (10_state R23, R29, R31, R32, R35) -/

section
/-! Two runs of one instruction from states that differ in a part it does not read end alike.
`SameOutcome` says so of two outcomes; each operation that can fault keeps it, given that the states agree on what the operation reads, and the three rules differ only in the relation carried along. -/

namespace Sys2Proof.Machine

open Sys2Proof.Safety

/-! ### Outcomes that agree -/

/-- Both outcomes are next states related by `R`, or both are the same fault. -/
inductive SameOutcome (R : State → State → Prop) : Result → Result → Prop where
  | next {t t' : State} (h : R t t') : SameOutcome R (.next t) (.next t')
  | fault (f : Fault) : SameOutcome R (.fault f) (.fault f)

section
variable {R : State → State → Prop}

theorem SameOutcome.exists_next {r : Result} {t : State} (h : SameOutcome R (.next t) r) :
    ∃ t', r = .next t' ∧ R t t' := by
  cases h with
  | next h => exact ⟨_, rfl, h⟩

theorem SameOutcome.eq_fault {r : Result} {f : Fault} (h : SameOutcome R (.fault f) r) : r = .fault f := by
  cases h
  rfl

variable {s s' : State}

theorem guardData_sameOutcome {t t' : State} {count : Nat} (hi : s'.i = s.i) (hpc : s'.pc = s.pc) (h : R t t') :
    SameOutcome R (guardData s count t) (guardData s' count t') := by
  unfold guardData
  rw [hi, hpc]
  split
  · exact .next h
  · exact .fault _

/-- `LD Vx,[I]` replaces all the registers alike where the registers and memory are alike. -/
theorem exec_ldVxMem_sameOutcome {x : Reg} (hv : s'.v = s.v) (hmem : s'.mem = s.mem) (hi : s'.i = s.i)
    (hpc : s'.pc = s.pc) (h : ∀ w, R (s.setRegs w).advance (s'.setRegs w).advance) :
    SameOutcome R (exec (.ldVxMem x) s) (exec (.ldVxMem x) s') := by
  refine guardData_sameOutcome hi hpc ?_
  simp only [State.loadRegs, hv, hmem, hi]
  exact h _

theorem skipOnKey_sameOutcome {x : Reg} {pressed : Bool} (hx : s'.reg x = s.reg x) (hkeys : s'.keys = s.keys)
    (hpc : s'.pc = s.pc) (h : ∀ c, R (s.skipIf c) (s'.skipIf c)) :
    SameOutcome R (skipOnKey x pressed s) (skipOnKey x pressed s') := by
  unfold skipOnKey
  rw [hx, hkeys, hpc]
  split
  · exact .fault _
  · exact .next (h _)

theorem exec_ret_sameOutcome (hsp : s'.sp = s.sp) (hpc : s'.pc = s.pc)
    (h : ∀ (d : Nat) (hd : d < 16), s.sp.val = d + 1 →
      R { s with sp := ⟨d, by omega⟩, pc := s.stack[d] } { s' with sp := ⟨d, by omega⟩, pc := s'.stack[d] }) :
    SameOutcome R (exec .ret s) (exec .ret s') := by
  by_cases h0 : s.sp.val = 0
  · have h0' : s'.sp.val = 0 := by rw [hsp, h0]
    rw [exec, exec, execRet_fault.mpr ⟨h0, rfl⟩, execRet_fault.mpr ⟨h0', rfl⟩, hpc]
    exact .fault _
  · obtain ⟨d, hd⟩ := Nat.exists_eq_succ_of_ne_zero h0
    have hlt : d < 16 := by omega
    rw [exec_ret_of_sp_succ hlt hd, exec_ret_of_sp_succ hlt (hsp ▸ hd)]
    exact .next (h d hlt hd)

theorem exec_callNnn_sameOutcome {nnn : BitVec 12} (hsp : s'.sp = s.sp) (hpc : s'.pc = s.pc)
    (h : ∀ (hd : s.sp.val < 16),
      R { s with stack := s.stack.set s.sp.val (s.pc + 2) hd, sp := ⟨s.sp.val + 1, by omega⟩, pc := addrOperand nnn }
        { s' with stack := s'.stack.set s.sp.val (s.pc + 2) hd, sp := ⟨s.sp.val + 1, by omega⟩, pc := addrOperand nnn }) :
    SameOutcome R (exec (.callNnn nnn) s) (exec (.callNnn nnn) s') := by
  by_cases hd : s.sp.val < 16
  · have hd' : s'.sp.val < 16 := by rwa [hsp]
    rw [exec_callNnn_of_sp_lt hd, exec_callNnn_of_sp_lt hd']
    simp only [hsp, hpc]
    exact .next (h hd)
  · have hfull : s.sp.val = 16 := by omega
    have hfull' : s'.sp.val = 16 := by rw [hsp, hfull]
    rw [exec, exec, execCallNnn_fault.mpr ⟨hfull, rfl⟩, execCallNnn_fault.mpr ⟨hfull', rfl⟩, hpc]
    exact .fault _

theorem execLdVxK_sameOutcome {x : Reg} (hkeys : s'.keys = s.keys)
    (hpressed : ∀ b, R (s.setReg x b).advance (s'.setReg x b).advance) (hidle : R s s') :
    SameOutcome R (execLdVxK x s) (execLdVxK x s') := by
  have hlowest : s'.lowestKey = s.lowestKey := by simp only [State.lowestKey, hkeys]
  unfold execLdVxK
  rw [hlowest]
  split
  · exact .next (hpressed _)
  · exact .next hidle

end

/-! ### Stale stack slots (R29) -/

/-- `t'` is `t` but for slots at or above `SP`. -/
def AgreeBelowSp (t t' : State) : Prop :=
  ∃ stack : Vector Word16 16, t' = { t with stack := stack } ∧ ∀ k : Fin 16, k.val < t.sp.val → stack[k] = t.stack[k]

/-- Writing one slot alike makes two stacks agree one slot further. -/
theorem getElem_set_of_agree_below {a b : Vector Word16 16} {d : Nat} (hd : d < 16) (w : Word16)
    (hab : ∀ k : Fin 16, k.val < d → a[k] = b[k]) (k : Fin 16) (hk : k.val < d + 1) :
    (a.set d w hd)[k] = (b.set d w hd)[k] := by
  simp only [Fin.getElem_fin, Vector.getElem_set]
  split
  · rfl
  · exact hab k (by omega)

/-- `RET` and `CALL` are the two instructions that touch a slot; the others carry the changed stack along. -/
theorem exec_agreeBelowSp (i : Instr) {s : State} {stack : Vector Word16 16}
    (hstack : ∀ k : Fin 16, k.val < s.sp.val → stack[k] = s.stack[k]) :
    SameOutcome AgreeBelowSp (exec i s) (exec i { s with stack := stack }) := by
  cases i with
  | ret =>
    refine exec_ret_sameOutcome rfl rfl fun d hd hsp => ⟨stack, ?_, fun k hk => hstack k ?_⟩
    · have hslot : stack[d] = s.stack[d] := hstack ⟨d, hd⟩ (by rw [hsp]; exact Nat.lt_succ_self d)
      simp only [hslot]
    · rw [hsp]
      exact Nat.lt_succ_of_lt hk
  | callNnn nnn =>
    exact exec_callNnn_sameOutcome rfl rfl fun hd => ⟨_, rfl, getElem_set_of_agree_below hd _ hstack⟩
  | skpVx | sknpVx => exact skipOnKey_sameOutcome rfl rfl rfl fun _ => ⟨stack, rfl, hstack⟩
  | ldVxMem => exact exec_ldVxMem_sameOutcome rfl rfl rfl rfl fun _ => ⟨stack, rfl, hstack⟩
  | drwVxVyN | ldBVx | ldMemVx => exact guardData_sameOutcome rfl rfl ⟨stack, rfl, hstack⟩
  | ldVxK => exact execLdVxK_sameOutcome rfl (fun _ => ⟨stack, rfl, hstack⟩) ⟨stack, rfl, hstack⟩
  | _ => exact .next ⟨stack, rfl, hstack⟩

/-- Settles O53: `RET` pops a slot below `SP`, `CALL` makes the slot at `SP` equal, and no other instruction reads a slot. -/
theorem staleStackSlotsAreUnobservable : Obligations.StaleStackSlotsAreUnobservable := by
  unfold Obligations.StaleStackSlotsAreUnobservable
  intro i s stack hstack
  have hsame := exec_agreeBelowSp i hstack
  refine ⟨fun t ht => ?next, fun f hf => (hf ▸ hsame).eq_fault⟩
  obtain ⟨t', ht', stack', rfl, hagree⟩ := (ht ▸ hsame).exists_next
  exact ⟨_, ht', rfl, hagree⟩

/-! ### Timers, keys and the redraw signal (R31, R32, R35) -/

/-- `t'` is `t` but for ST, DT, `REDRAW` and `KEY`. -/
def AgreeButTimersKeysRedraw (t t' : State) : Prop :=
  ∃ (st dt : Byte) (redraw : Bool) (keys : Vector Bool 16),
    t' = { t with st := st, dt := dt, redraw := redraw, keys := keys }

/-- The readers of `KEY` and DT are given what they read; the others carry the changed fields along. -/
theorem exec_agreeButTimersKeysRedraw (i : Instr) {s : State} {dt : Byte} {keys : Vector Bool 16}
    (hkeys : readsKeys i = true → keys = s.keys) (hdt : readsDelay i = true → dt = s.dt) (st : Byte) (redraw : Bool) :
    SameOutcome AgreeButTimersKeysRedraw (exec i s)
      (exec i { s with st := st, dt := dt, redraw := redraw, keys := keys }) := by
  cases i with
  | ret => exact exec_ret_sameOutcome rfl rfl fun _ _ _ => ⟨_, _, _, _, rfl⟩
  | callNnn nnn => exact exec_callNnn_sameOutcome rfl rfl fun _ => ⟨_, _, _, _, rfl⟩
  | skpVx | sknpVx => exact skipOnKey_sameOutcome rfl (hkeys rfl) rfl fun _ => ⟨_, _, _, _, rfl⟩
  | ldVxMem => exact exec_ldVxMem_sameOutcome rfl rfl rfl rfl fun _ => ⟨_, _, _, _, rfl⟩
  | drwVxVyN | ldBVx | ldMemVx => exact guardData_sameOutcome rfl rfl ⟨_, _, _, _, rfl⟩
  | ldVxK => exact execLdVxK_sameOutcome (hkeys rfl) (fun _ => ⟨_, _, _, _, rfl⟩) ⟨_, _, _, _, rfl⟩
  | ldVxDt =>
    obtain rfl := hdt rfl
    exact .next ⟨_, _, _, _, rfl⟩
  | _ => exact .next ⟨_, _, _, _, rfl⟩

/-- Settles O52: the readers of DT and `KEY` are given what they read, and no instruction reads ST or `REDRAW`. -/
theorem timersKeysAndRedrawAreReadOnlyByTheirReaders : Obligations.TimersKeysAndRedrawAreReadOnlyByTheirReaders := by
  unfold Obligations.TimersKeysAndRedrawAreReadOnlyByTheirReaders
  intro i s st dt redraw keys hkeys hdt
  have hsame := exec_agreeButTimersKeysRedraw i hkeys hdt st redraw
  refine ⟨fun t ht => ?next, fun f hf => (hf ▸ hsame).eq_fault⟩
  obtain ⟨t', ht', _, _, _, _, rfl⟩ := (ht ▸ hsame).exists_next
  exact ⟨_, ht', rfl⟩

/-! ### VF (R23) -/

theorem setReg_setReg_same (s : State) (x : Reg) (a b : Byte) : (s.setReg x a).setReg x b = s.setReg x b := by
  simp only [State.setReg, Vector.set_set]

theorem setReg_comm (s : State) {x y : Reg} (hxy : x ≠ y) (a b : Byte) :
    (s.setReg x a).setReg y b = (s.setReg y b).setReg x a := by
  simp only [State.setReg, Vector.set_comm _ _ (fun h => hxy (Fin.ext h))]

theorem setReg_reg_self_eq (s : State) (x : Reg) : s.setReg x (s.reg x) = s := by
  simp [State.setReg, State.reg]

/-- `t'` is `t` but for VF. -/
def AgreeButVF (t t' : State) : Prop := ∃ b, t' = t.setReg VF b

/-- A flag writer's VF does not depend on the VF before. -/
theorem setReg_VF_setResultAndFlag (s : State) {x : Reg} (hx : x ≠ VF) (b result flag : Byte) :
    (s.setReg VF b).setResultAndFlag x result flag = s.setResultAndFlag x result flag := by
  simp only [State.setResultAndFlag]
  rw [setReg_comm s (Ne.symm hx), setReg_setReg_same]

theorem setResultAndFlag_setReg_VF (s : State) (x : Reg) (result flag : Byte) :
    (s.setResultAndFlag x result flag).setReg VF flag = s.setResultAndFlag x result flag := by
  simp only [State.setResultAndFlag]
  rw [setReg_setReg_same]

/-- A block store of registers below VF does not store VF. -/
theorem setReg_VF_regsUpTo (s : State) {x : Reg} (hx : x < VF) (b : Byte) :
    (s.setReg VF b).regsUpTo x = s.regsUpTo x := by
  simp only [State.regsUpTo, State.setReg_v, Vector.toList_set]
  exact List.take_set_of_le (Nat.succ_le_of_lt hx)

/-- A block load of registers below VF keeps VF, and loads the others alike. -/
theorem loadRegs_setReg_VF (s : State) {x : Reg} (hx : x < VF) (b : Byte) (base : Nat) :
    ∃ w, s.loadRegs base x = s.setRegs w ∧ (s.setReg VF b).loadRegs base x = s.setRegs (w.set VF b) := by
  have hxVF : x.val < 15 := hx
  have hv : ((s.setReg VF b).loadRegs base x).v = (s.loadRegs base x).v.set VF b := by
    refine Vector.ext fun k hk => ?_
    simp only [State.loadRegs_v, State.setReg_v, State.setReg_mem, Vector.getElem_ofFn, Vector.getElem_set,
      Fin.getElem_fin]
    by_cases hk15 : 15 = k
    · subst hk15
      simp [Nat.not_le.mpr hxVF]
    · simp [hk15]
  exact ⟨_, rfl, congrArg s.setRegs hv⟩

/-- A draw replaces VF, whatever it held. -/
theorem setReg_VF_drawState (s : State) {x y : Reg} (hx : x ≠ VF) (hy : y ≠ VF) (b : Byte) (n : BitVec 4) :
    drawState (s.setReg VF b) x y n = drawState s x y n := by
  have hresult : drawResult (s.setReg VF b) x y n = drawResult s x y n := by
    simp only [drawResult, State.setReg_reg_ne s b VF _ hx, State.setReg_reg_ne s b VF _ hy, State.setReg_fb,
      State.setReg_mem, State.setReg_i]
  have hflag := setReg_setReg_same (s.setFb (drawResult s x y n).1) VF b (flagByte (drawResult s x y n).2)
  rw [drawState, hresult]
  exact congrArg (fun u => (State.setRedraw u true).advance) hflag

theorem ne_VF_of_beq_eq_false {x : Reg} (hx : (VF == x) = false) : x ≠ VF :=
  Ne.symm (beq_eq_false_iff_ne.mp hx)

/-- An instruction that does not name VF keeps the agreement, case by case: it reads other registers, and a write to one of them commutes with the change of VF or, of a flag writer, replaces it. -/
theorem exec_agreeButVF {i : Instr} (hi : namesRegister i VF = false) (s : State) (b : Byte) :
    SameOutcome AgreeButVF (exec i s) (exec i (s.setReg VF b)) := by
  have hread {x : Reg} (hx : (VF == x) = false) : (s.setReg VF b).reg x = s.reg x :=
    State.setReg_reg_ne s b VF x (ne_VF_of_beq_eq_false hx)
  have hwrite {x : Reg} (hx : (VF == x) = false) (w : Byte) : (s.setReg VF b).setReg x w = (s.setReg x w).setReg VF b :=
    setReg_comm s (ne_VF_of_beq_eq_false hx).symm b w
  have hflag {x : Reg} (hx : (VF == x) = false) (result flag : Byte) :
      AgreeButVF (s.setResultAndFlag x result flag).advance ((s.setReg VF b).setResultAndFlag x result flag).advance := by
    refine ⟨flag, ?_⟩
    rw [setReg_VF_setResultAndFlag s (ne_VF_of_beq_eq_false hx)]
    exact congrArg State.advance (setResultAndFlag_setReg_VF s x result flag).symm
  cases i with
  | ret => exact exec_ret_sameOutcome rfl rfl fun _ _ _ => ⟨b, rfl⟩
  | callNnn nnn => exact exec_callNnn_sameOutcome rfl rfl fun _ => ⟨b, rfl⟩
  | skpVx | sknpVx => exact skipOnKey_sameOutcome (hread hi) rfl rfl fun _ => ⟨b, rfl⟩
  | cls | jpNnn | ldINnn => exact .next ⟨b, rfl⟩
  | jpV0Nnn =>
    refine .next ⟨b, ?_⟩
    rw [hread rfl]
    rfl
  | seVxKk | sneVxKk | ldDtVx | ldStVx | addIVx | ldFVx =>
    refine .next ⟨b, ?_⟩
    rw [hread hi]
    rfl
  | ldVxKk | rndVxKk | ldVxDt =>
    refine .next ⟨b, ?_⟩
    rw [hwrite hi]
    rfl
  | addVxKk =>
    refine .next ⟨b, ?_⟩
    rw [hread hi, hwrite hi]
    rfl
  | ldVxK => exact execLdVxK_sameOutcome rfl (fun w => ⟨b, congrArg State.advance (hwrite hi w)⟩) ⟨b, rfl⟩
  | seVxVy | sneVxVy =>
    obtain ⟨hx, hy⟩ := Bool.or_eq_false_iff.mp hi
    refine .next ⟨b, ?_⟩
    rw [hread hx, hread hy]
    rfl
  | ldVxVy =>
    obtain ⟨hx, hy⟩ := Bool.or_eq_false_iff.mp hi
    refine .next ⟨b, ?_⟩
    rw [hread hy, hwrite hx]
    rfl
  | orVxVy | andVxVy | xorVxVy =>
    obtain ⟨hx, hy⟩ := Bool.or_eq_false_iff.mp hi
    refine .next ⟨b, ?_⟩
    rw [hread hx, hread hy, hwrite hx]
    rfl
  | addVxVy x y | subVxVy x y | subnVxVy x y =>
    obtain ⟨hx, hy⟩ := Bool.or_eq_false_iff.mp hi
    refine .next ?_
    rw [hread hx, hread hy]
    exact hflag hx _ _
  | shrVx | shlVx =>
    refine .next ?_
    rw [hread hi]
    exact hflag hi _ _
  | drwVxVyN x y n =>
    obtain ⟨hx, hy⟩ := Bool.or_eq_false_iff.mp hi
    refine guardData_sameOutcome rfl rfl ⟨(drawState s x y n).reg VF, ?_⟩
    have hdraw := setReg_VF_drawState s (ne_VF_of_beq_eq_false hx) (ne_VF_of_beq_eq_false hy) b n
    exact hdraw.trans (setReg_reg_self_eq _ VF).symm
  | ldBVx =>
    refine guardData_sameOutcome rfl rfl ⟨b, ?_⟩
    rw [hread hi]
    rfl
  | ldMemVx x =>
    refine guardData_sameOutcome rfl rfl ⟨b, ?_⟩
    rw [setReg_VF_regsUpTo s (not_le.mp (of_decide_eq_false hi))]
    rfl
  | ldVxMem x =>
    obtain ⟨w, hload, hload'⟩ := loadRegs_setReg_VF s (not_le.mp (of_decide_eq_false hi)) b s.i.toNat
    refine guardData_sameOutcome rfl rfl ⟨b, ?_⟩
    rw [State.setReg_i, hload, hload']
    rfl

/-- Settles O50: the states agree but for VF before and after, and VF is then given the value it would have had. -/
theorem flagIsReadOnlyByName : Obligations.FlagIsReadOnlyByName := by
  unfold Obligations.FlagIsReadOnlyByName
  intro i s b hi
  have hsame := exec_agreeButVF hi s b
  refine ⟨fun t ht => ?next, fun f hf => (hf ▸ hsame).eq_fault⟩
  obtain ⟨t', ht', b', rfl⟩ := (ht ▸ hsame).exists_next
  exact ⟨_, ht', by rw [setReg_setReg_same, setReg_reg_self_eq]⟩

end Sys2Proof.Machine
end
